-- ==== Sys2Proof/Word.lean ====
section
/-!
DEFINITION. The widths the spec gives (R7, R92): bytes, 16-bit words, 12-bit addresses, nibbles, register indexes.
-/

namespace Sys2Proof

/-- A memory byte, a general register, a timer (R7 V_WIDTH, TIMER_WIDTH). -/
abbrev Byte := BitVec 8

/-- `pc`, `I`, an instruction word (R7 PC_WIDTH, I_WIDTH; R90). -/
abbrev Word := BitVec 16

/-- The `nnn` field (R92). -/
abbrev Addr := BitVec 12

/-- The `n` field and the op-class (R92). -/
abbrev Nibble := BitVec 4

/-- The `x` and `y` fields: a general register V0 to VF (R12, R20). -/
abbrev RegIdx := BitVec 4

/-- The contents of memory (R60) as (address, byte) pairs; canonical form and reads are in Machine/Ops.lean. -/
abbrev Memory := List Host.Cell

/-- The pixels of the display (R33): the rows from the top, each row's cells from the left. -/
abbrev Display := List (List Bool)

/-- The flag register VF (R21). -/
abbrev VF : RegIdx := 0xF#4

/-- MEM_SIZE (R7). -/
abbrev memSize : Nat := 4096

/-- FONT_BASE (R7). -/
abbrev fontBase : Nat := 0x000

/-- PROGRAM_BASE (R7). -/
abbrev programBase : Nat := 0x200

/-- The largest font image, the reserved range 0x000 to 0x1FF (R76). -/
abbrev fontMax : Nat := 512

/-- PROGRAM_MAX (R7). -/
abbrev programMax : Nat := 3584

end Sys2Proof
end

