-- ==== Sys2Proof/Syntax.lean ====
section
/-!
DEFINITION. The instructions: one constructor per row of spec/opcode_table.json (R95), operands as the row's fields.
-/

namespace Sys2Proof

/-- The 35 rows of R95. The operands are the fields of R92 that the row's pattern leaves open. -/
inductive Instr where
  /-- 0nnn, x ≠ 0: `SYS nnn` (R127) -/
  | sys (nnn : Addr)
  /-- 00E0: `CLS` (R200) -/
  | cls
  /-- 00EE: `RET` (R128) -/
  | ret
  /-- 1nnn: `JP nnn` (R129) -/
  | jp (nnn : Addr)
  /-- 2nnn: `CALL nnn` (R130) -/
  | call (nnn : Addr)
  /-- 3xnn: `SE Vx, nn` (R131) -/
  | seImm (x : RegIdx) (nn : Byte)
  /-- 4xnn: `SNE Vx, nn` (R132) -/
  | sneImm (x : RegIdx) (nn : Byte)
  /-- 5xy0: `SE Vx, Vy` (R133) -/
  | seReg (x y : RegIdx)
  /-- 6xnn: `LD Vx, nn` (R151) -/
  | ldImm (x : RegIdx) (nn : Byte)
  /-- 7xnn: `ADD Vx, nn` (R152) -/
  | addImm (x : RegIdx) (nn : Byte)
  /-- 8xy0: `LD Vx, Vy` (R153) -/
  | ldReg (x y : RegIdx)
  /-- 8xy1: `OR Vx, Vy` (R154) -/
  | orReg (x y : RegIdx)
  /-- 8xy2: `AND Vx, Vy` (R155) -/
  | andReg (x y : RegIdx)
  /-- 8xy3: `XOR Vx, Vy` (R156) -/
  | xorReg (x y : RegIdx)
  /-- 8xy4: `ADD Vx, Vy` (R157) -/
  | addReg (x y : RegIdx)
  /-- 8xy5: `SUB Vx, Vy` (R158) -/
  | subReg (x y : RegIdx)
  /-- 8xy6: `SHR Vx, Vy` (R159) -/
  | shr (x y : RegIdx)
  /-- 8xy7: `SUBN Vx, Vy` (R160) -/
  | subn (x y : RegIdx)
  /-- 8xyE: `SHL Vx, Vy` (R161) -/
  | shl (x y : RegIdx)
  /-- 9xy0: `SNE Vx, Vy` (R134) -/
  | sneReg (x y : RegIdx)
  /-- Annn: `LD I, nnn` (R180) -/
  | ldI (nnn : Addr)
  /-- Bnnn: `JP V0, nnn` (R135) -/
  | jpV0 (nnn : Addr)
  /-- Cxnn: `RND Vx, nn` (R162) -/
  | rnd (x : RegIdx) (nn : Byte)
  /-- Dxyn: `DRW Vx, Vy, n` (R201) -/
  | drw (x y : RegIdx) (n : Nibble)
  /-- Ex9E: `SKP Vx` (R221) -/
  | skp (x : RegIdx)
  /-- ExA1: `SKNP Vx` (R222) -/
  | sknp (x : RegIdx)
  /-- Fx07: `LD Vx, DT` (R223) -/
  | ldVxDt (x : RegIdx)
  /-- Fx0A: `LD Vx, K` (R224) -/
  | ldVxK (x : RegIdx)
  /-- Fx15: `LD DT, Vx` (R225) -/
  | ldDtVx (x : RegIdx)
  /-- Fx18: `LD ST, Vx` (R226) -/
  | ldStVx (x : RegIdx)
  /-- Fx1E: `ADD I, Vx` (R181) -/
  | addI (x : RegIdx)
  /-- Fx29: `LD F, Vx` (R182) -/
  | ldF (x : RegIdx)
  /-- Fx33: `LD B, Vx` (R183) -/
  | ldB (x : RegIdx)
  /-- Fx55: `LD [I], Vx` (R184) -/
  | ldMemVx (x : RegIdx)
  /-- Fx65: `LD Vx, [I]` (R185) -/
  | ldVxMem (x : RegIdx)
  deriving DecidableEq, Repr

end Sys2Proof
end

