-- ==== Sys2Proof/Decode.lean ====
section
/-!
DEFINITION. The decoder (R90 to R99), the encoder written from the same table, and the opcode map of R95 as rows.
-/

namespace Sys2Proof

/-- Word assembly, big-endian (R91): byte 1 is the high byte. -/
def assemble (b1 b2 : Byte) : Word := (b1.zeroExtend 16) <<< 8 ||| b2.zeroExtend 16

/-- The bytes of a word in the order they stand in memory (R64). -/
def wordBytes (w : Word) : List Byte := [w.extractLsb' 8 8, w.extractLsb' 0 8]

/-- op, `w[15:12]` (R92). -/
def fieldOp (w : Word) : Nibble := w.extractLsb' 12 4

/-- x, `w[11:8]` (R92). -/
def fieldX (w : Word) : RegIdx := w.extractLsb' 8 4

/-- y, `w[7:4]` (R92). -/
def fieldY (w : Word) : RegIdx := w.extractLsb' 4 4

/-- n, `w[3:0]` (R92). -/
def fieldN (w : Word) : Nibble := w.extractLsb' 0 4

/-- nn, `w[7:0]` (R92). -/
def fieldNn (w : Word) : Byte := w.extractLsb' 0 8

/-- nnn, `w[11:0]` (R92). -/
def fieldNnn (w : Word) : Addr := w.extractLsb' 0 12

/-- What the decoder answers (R99): a row, or `Unknown(w)`. -/
inductive Decoded where
  /-- the word selects this row of R95 -/
  | instr (i : Instr)
  /-- the word is in the unknown-instruction space of R96 -/
  | unknown (w : Word)
  deriving DecidableEq, Repr

/-- Op-class 0 (R94): `full` against 00E0 and 00EE, then x ≠ 0 (R97, D11). -/
def decodeOp0 (w : Word) : Decoded :=
  if w = 0x00E0#16 then .instr .cls
  else if w = 0x00EE#16 then .instr .ret
  else if fieldX w ≠ 0x0#4 then .instr (.sys (fieldNnn w))
  else .unknown w

/-- Op-class 8 (R94): the second dispatch is on n. -/
def decodeOp8 (w : Word) : Decoded :=
  let x := fieldX w
  let y := fieldY w
  match (fieldN w).toNat with
  | 0x0 => .instr (.ldReg x y)
  | 0x1 => .instr (.orReg x y)
  | 0x2 => .instr (.andReg x y)
  | 0x3 => .instr (.xorReg x y)
  | 0x4 => .instr (.addReg x y)
  | 0x5 => .instr (.subReg x y)
  | 0x6 => .instr (.shr x y)
  | 0x7 => .instr (.subn x y)
  | 0xE => .instr (.shl x y)
  | _ => .unknown w

/-- Op-class E (R94): the second dispatch is on nn. -/
def decodeOpE (w : Word) : Decoded :=
  let x := fieldX w
  match (fieldNn w).toNat with
  | 0x9E => .instr (.skp x)
  | 0xA1 => .instr (.sknp x)
  | _ => .unknown w

/-- Op-class F (R94): the second dispatch is on nn. -/
def decodeOpF (w : Word) : Decoded :=
  let x := fieldX w
  match (fieldNn w).toNat with
  | 0x07 => .instr (.ldVxDt x)
  | 0x0A => .instr (.ldVxK x)
  | 0x15 => .instr (.ldDtVx x)
  | 0x18 => .instr (.ldStVx x)
  | 0x1E => .instr (.addI x)
  | 0x29 => .instr (.ldF x)
  | 0x33 => .instr (.ldB x)
  | 0x55 => .instr (.ldMemVx x)
  | 0x65 => .instr (.ldVxMem x)
  | _ => .unknown w

/-- The decoder (R94 to R97), total on words (R99). -/
def decode (w : Word) : Decoded :=
  let x := fieldX w
  let y := fieldY w
  let nn := fieldNn w
  let nnn := fieldNnn w
  match (fieldOp w).toNat with
  | 0x0 => decodeOp0 w
  | 0x1 => .instr (.jp nnn)
  | 0x2 => .instr (.call nnn)
  | 0x3 => .instr (.seImm x nn)
  | 0x4 => .instr (.sneImm x nn)
  | 0x5 => if fieldN w = 0x0#4 then .instr (.seReg x y) else .unknown w
  | 0x6 => .instr (.ldImm x nn)
  | 0x7 => .instr (.addImm x nn)
  | 0x8 => decodeOp8 w
  | 0x9 => if fieldN w = 0x0#4 then .instr (.sneReg x y) else .unknown w
  | 0xA => .instr (.ldI nnn)
  | 0xB => .instr (.jpV0 nnn)
  | 0xC => .instr (.rnd x nn)
  | 0xD => .instr (.drw x y (fieldN w))
  | 0xE => decodeOpE w
  | _ => decodeOpF w

/-- The decoder on the two bytes a fetch reads (R91, R122), byte 1 first. -/
def decodeBytes (b1 b2 : Byte) : Decoded := decode (assemble b1 b2)

/-- A word of the form `op nnn` (R92). -/
def packNnn (op : Nibble) (nnn : Addr) : Word := op ++ nnn

/-- A word of the form `op x nn` (R92). -/
def packXnn (op : Nibble) (x : RegIdx) (nn : Byte) : Word := op ++ x ++ nn

/-- A word of the form `op x y n` (R92). -/
def packXyn (op : Nibble) (x y : RegIdx) (n : Nibble) : Word := op ++ x ++ y ++ n

/-- The encoder, from the patterns of R95. -/
def encode : Instr → Word
  | .sys nnn => packNnn 0x0#4 nnn
  | .cls => 0x00E0#16
  | .ret => 0x00EE#16
  | .jp nnn => packNnn 0x1#4 nnn
  | .call nnn => packNnn 0x2#4 nnn
  | .seImm x nn => packXnn 0x3#4 x nn
  | .sneImm x nn => packXnn 0x4#4 x nn
  | .seReg x y => packXyn 0x5#4 x y 0x0#4
  | .ldImm x nn => packXnn 0x6#4 x nn
  | .addImm x nn => packXnn 0x7#4 x nn
  | .ldReg x y => packXyn 0x8#4 x y 0x0#4
  | .orReg x y => packXyn 0x8#4 x y 0x1#4
  | .andReg x y => packXyn 0x8#4 x y 0x2#4
  | .xorReg x y => packXyn 0x8#4 x y 0x3#4
  | .addReg x y => packXyn 0x8#4 x y 0x4#4
  | .subReg x y => packXyn 0x8#4 x y 0x5#4
  | .shr x y => packXyn 0x8#4 x y 0x6#4
  | .subn x y => packXyn 0x8#4 x y 0x7#4
  | .shl x y => packXyn 0x8#4 x y 0xE#4
  | .sneReg x y => packXyn 0x9#4 x y 0x0#4
  | .ldI nnn => packNnn 0xA#4 nnn
  | .jpV0 nnn => packNnn 0xB#4 nnn
  | .rnd x nn => packXnn 0xC#4 x nn
  | .drw x y n => packXyn 0xD#4 x y n
  | .skp x => packXnn 0xE#4 x 0x9E#8
  | .sknp x => packXnn 0xE#4 x 0xA1#8
  | .ldVxDt x => packXnn 0xF#4 x 0x07#8
  | .ldVxK x => packXnn 0xF#4 x 0x0A#8
  | .ldDtVx x => packXnn 0xF#4 x 0x15#8
  | .ldStVx x => packXnn 0xF#4 x 0x18#8
  | .addI x => packXnn 0xF#4 x 0x1E#8
  | .ldF x => packXnn 0xF#4 x 0x29#8
  | .ldB x => packXnn 0xF#4 x 0x33#8
  | .ldMemVx x => packXnn 0xF#4 x 0x55#8
  | .ldVxMem x => packXnn 0xF#4 x 0x65#8

/-- A row of the opcode map R95: `w` is the row when `w & mask = value` and, where the row asks it, x ≠ 0. -/
structure OpcodeRow where
  /-- the column `match` -/
  value : Word
  /-- the column `mask` -/
  mask : Word
  /-- the condition `x != 0` -/
  needsX : Bool := false
  deriving DecidableEq, Repr

/-- The word is this row (R95). -/
def OpcodeRow.selects (r : OpcodeRow) (w : Word) : Bool :=
  w &&& r.mask == r.value && (!r.needsX || fieldX w != 0x0#4)

/-- The opcode map R95, row by row in the table's order. -/
def opcodeTable : List OpcodeRow :=
  [ ⟨0x0000, 0xF000, true⟩, ⟨0x00E0, 0xFFFF, false⟩, ⟨0x00EE, 0xFFFF, false⟩, ⟨0x1000, 0xF000, false⟩,
    ⟨0x2000, 0xF000, false⟩, ⟨0x3000, 0xF000, false⟩, ⟨0x4000, 0xF000, false⟩, ⟨0x5000, 0xF00F, false⟩,
    ⟨0x6000, 0xF000, false⟩, ⟨0x7000, 0xF000, false⟩ ] ++
  [ ⟨0x8000, 0xF00F, false⟩, ⟨0x8001, 0xF00F, false⟩, ⟨0x8002, 0xF00F, false⟩, ⟨0x8003, 0xF00F, false⟩,
    ⟨0x8004, 0xF00F, false⟩, ⟨0x8005, 0xF00F, false⟩, ⟨0x8006, 0xF00F, false⟩, ⟨0x8007, 0xF00F, false⟩,
    ⟨0x800E, 0xF00F, false⟩, ⟨0x9000, 0xF00F, false⟩ ] ++
  [ ⟨0xA000, 0xF000, false⟩, ⟨0xB000, 0xF000, false⟩, ⟨0xC000, 0xF000, false⟩, ⟨0xD000, 0xF000, false⟩,
    ⟨0xE09E, 0xF0FF, false⟩, ⟨0xE0A1, 0xF0FF, false⟩ ] ++
  [ ⟨0xF007, 0xF0FF, false⟩, ⟨0xF00A, 0xF0FF, false⟩, ⟨0xF015, 0xF0FF, false⟩, ⟨0xF018, 0xF0FF, false⟩,
    ⟨0xF01E, 0xF0FF, false⟩, ⟨0xF029, 0xF0FF, false⟩, ⟨0xF033, 0xF0FF, false⟩, ⟨0xF055, 0xF0FF, false⟩,
    ⟨0xF065, 0xF0FF, false⟩ ]

/-- The row of R95 an instruction stands for. -/
def Instr.row : Instr → OpcodeRow
  | .sys _ => ⟨0x0000, 0xF000, true⟩
  | .cls => ⟨0x00E0, 0xFFFF, false⟩
  | .ret => ⟨0x00EE, 0xFFFF, false⟩
  | .jp _ => ⟨0x1000, 0xF000, false⟩
  | .call _ => ⟨0x2000, 0xF000, false⟩
  | .seImm _ _ => ⟨0x3000, 0xF000, false⟩
  | .sneImm _ _ => ⟨0x4000, 0xF000, false⟩
  | .seReg _ _ => ⟨0x5000, 0xF00F, false⟩
  | .ldImm _ _ => ⟨0x6000, 0xF000, false⟩
  | .addImm _ _ => ⟨0x7000, 0xF000, false⟩
  | .ldReg _ _ => ⟨0x8000, 0xF00F, false⟩
  | .orReg _ _ => ⟨0x8001, 0xF00F, false⟩
  | .andReg _ _ => ⟨0x8002, 0xF00F, false⟩
  | .xorReg _ _ => ⟨0x8003, 0xF00F, false⟩
  | .addReg _ _ => ⟨0x8004, 0xF00F, false⟩
  | .subReg _ _ => ⟨0x8005, 0xF00F, false⟩
  | .shr _ _ => ⟨0x8006, 0xF00F, false⟩
  | .subn _ _ => ⟨0x8007, 0xF00F, false⟩
  | .shl _ _ => ⟨0x800E, 0xF00F, false⟩
  | .sneReg _ _ => ⟨0x9000, 0xF00F, false⟩
  | .ldI _ => ⟨0xA000, 0xF000, false⟩
  | .jpV0 _ => ⟨0xB000, 0xF000, false⟩
  | .rnd _ _ => ⟨0xC000, 0xF000, false⟩
  | .drw _ _ _ => ⟨0xD000, 0xF000, false⟩
  | .skp _ => ⟨0xE09E, 0xF0FF, false⟩
  | .sknp _ => ⟨0xE0A1, 0xF0FF, false⟩
  | .ldVxDt _ => ⟨0xF007, 0xF0FF, false⟩
  | .ldVxK _ => ⟨0xF00A, 0xF0FF, false⟩
  | .ldDtVx _ => ⟨0xF015, 0xF0FF, false⟩
  | .ldStVx _ => ⟨0xF018, 0xF0FF, false⟩
  | .addI _ => ⟨0xF01E, 0xF0FF, false⟩
  | .ldF _ => ⟨0xF029, 0xF0FF, false⟩
  | .ldB _ => ⟨0xF033, 0xF0FF, false⟩
  | .ldMemVx _ => ⟨0xF055, 0xF0FF, false⟩
  | .ldVxMem _ => ⟨0xF065, 0xF0FF, false⟩

/-- The word whose bits are `w`, numbered as spec/opcode_table.json numbers them; the bits above `nbits` are 0. -/
def tableWord (nbits w : Nat) : Word := BitVec.ofNat 16 (w % 2 ^ nbits)

/-- The instruction the decoder reads from the bytes of a table word, in the order the memory stores them (R64). -/
def decodeTableWord (nbits w : Nat) : Option Instr :=
  match wordBytes (tableWord nbits w) with
  | [b1, b2] =>
    match decodeBytes b1 b2 with
    | .instr i => some i
    | .unknown _ => none
  | _ => none

end Sys2Proof
end

