-- ==== Sys2Proof/Config.lean ====
section
/-!
DEFINITION. The parameters of the engine (R8, R9), fixed for a run, and the values the spec leaves free.
-/

namespace Sys2Proof

/-- ALU_VF_ORDER (R9, R150): when the operands of 8xy5, 8xy6, 8xy7, 8xyE are read. -/
inductive AluVfOrder where
  /-- a register read after the flag write sees the flag -/
  | sequential
  /-- the operands are read once, before any write -/
  | latched
  deriving DecidableEq, Repr

/-- UNKNOWN_POLICY (R9, R245): what follows an unknown instruction. -/
inductive UnknownPolicy where
  /-- latched like every other fault -/
  | halt
  /-- reported for that step only -/
  | continue
  deriving DecidableEq, Repr

/-- The configuration and decided parameters of R8 and R9. -/
structure Config where
  /-- DISPLAY_W -/
  displayW : Nat
  /-- DISPLAY_H -/
  displayH : Nat
  /-- KEY_COUNT -/
  keyCount : Nat
  /-- SHIFT_USES_VY -/
  shiftUsesVy : Bool
  /-- LDST_INCREMENTS_I -/
  ldstIncrementsI : Bool
  /-- STACK_DEPTH -/
  stackDepth : Nat
  /-- ALU_VF_ORDER -/
  aluVfOrder : AluVfOrder
  /-- UNKNOWN_POLICY -/
  unknownPolicy : UnknownPolicy
  /-- KEY_SCAN_ORDER -/
  keyScanOrder : List Nat
  /-- FONT -/
  font : List Byte
  /-- INIT_MEM -/
  initMem : Memory
  /-- RESET_V -/
  resetV : Vector Byte 16
  /-- RESET_I -/
  resetI : Word
  /-- RESET_DT -/
  resetDt : Byte
  /-- RESET_ST -/
  resetSt : Byte
  deriving DecidableEq, Repr

/-- SHIFT_USES_VY has no default (R8, D21): a free constant. DESIGN CHOICE (log 2), safe. -/
opaque Config.openShiftUsesVy : Bool

/-- LDST_INCREMENTS_I has no default (R8, D21): a free constant. DESIGN CHOICE (log 2), safe. -/
opaque Config.openLdstIncrementsI : Bool

/-- Whether key `k` is pressed in the `n`-th free key snapshot (R37). DESIGN CHOICE (log 3), safe. -/
opaque Config.freeKey : (n k : Nat) → Bool

/-- The `n`-th free random byte (R38: "a free draw under no law"). DESIGN CHOICE (log 3), safe. -/
opaque Config.freeRnd : (n : Nat) → Byte

/-- How many ticks fall before the `n`-th step with free inputs (R252: "any number of ticks, including none").
DESIGN CHOICE (log 4), safe. -/
opaque Config.freeTicks : (n : Nat) → Nat

/-- The defaults of R8 and R9. FONT has none: no font is loaded (log 19). -/
def Config.default : Config where
  displayW := 64
  displayH := 32
  keyCount := 16
  shiftUsesVy := Config.openShiftUsesVy
  ldstIncrementsI := Config.openLdstIncrementsI
  stackDepth := 16
  aluVfOrder := .sequential
  unknownPolicy := .halt
  keyScanOrder := List.range 16
  font := []
  initMem := []
  resetV := Vector.replicate 16 0x00#8
  resetI := 0x0000#16
  resetDt := 0x00#8
  resetSt := 0x00#8

end Sys2Proof
end

