-- ==== Sys2Proof/Machine/State.lean ====
section
/-!
DEFINITION. The state of the engine (R20 to R43), why a step can stop, and the state after reset (R42, R270, R271).
-/

namespace Sys2Proof.Machine

/-- The faults a step can end with (R240). `FaultCode.number` in Machine/Ops.lean gives the codes. -/
inductive FaultCode where
  /-- code 1: the fetched word matches no pattern (R96, R123) -/
  | unknownInstruction
  /-- code 2: 00EE with an empty stack (R128) -/
  | stackUnderflow
  /-- code 3: 2nnn with STACK_DEPTH entries on the stack (R130) -/
  | stackOverflow
  /-- code 4: `pc > 4094` (R122) -/
  | fetchOutOfRange
  /-- code 5: a data address above 4095 (R183, R184, R185, R201) -/
  | dataOutOfRange
  /-- code 6: a key number `V[x] >= KEY_COUNT` (R220) -/
  | keyIndexOutOfRange
  deriving DecidableEq, Repr

/-- The fault record `{code, word, pc, addr}` (R241). -/
structure FaultRecord where
  /-- the kind of fault -/
  code : FaultCode
  /-- the fetched word, `none` for FetchOutOfRange -/
  word : Option Word
  /-- the address of the faulting instruction -/
  pc : Word
  /-- the first out-of-range address or the key number, `none` for the other faults -/
  addr : Option Word
  deriving DecidableEq, Repr

/-- What the `step` port returns (R40, R124). -/
inductive StepReply where
  /-- the step ran -/
  | ok
  /-- the step ended in this fault -/
  | fault (r : FaultRecord)
  deriving DecidableEq, Repr

/-- What the environment gives one step: the ticks that fall before it (R252), its key snapshot (R37), its random
byte (R38). -/
structure StepInput where
  /-- ticks of the Timer Driver since the step before -/
  ticks : Nat
  /-- `keys`, key 0 first -/
  keys : List Bool
  /-- `rnd` -/
  rnd : Byte
  deriving DecidableEq, Repr

/-- Why the machine has no transition. -/
inductive Fault where
  /-- Raised by `step` while `HALT = 1`: the engine takes no step and the port returns the held FAULT (R120, R35). Safe: the
  spec gives no transition from such a state (log 7). -/
  | halted (held : Option FaultRecord)
  deriving DecidableEq, Repr

/-- Why the model rejects a step. -/
inductive Refusal where
  /-- Answered by `exec` for an instruction that has no meaning yet. Safe: it stops. -/
  | notModelled (mnemonic : String)
  /-- Answered by `step` when the configuration breaks a constraint of R8 or R9 (U19, U20: "refuse"). Safe: it stops (log 9). -/
  | illegalConfig
  /-- Answered by `step` when the host passes a snapshot whose length is not KEY_COUNT (R41). Safe: it stops (log 10). -/
  | badSnapshot
  deriving DecidableEq, Repr

/-- The state. The fields up to `mem` are the spec's (R42); `cfg` is the configuration, fixed for the run (R36); the
fields from `keys` on are the model's own: the inputs and the reply of a step, and what the environment gives later steps. -/
structure State where
  /-- The parameters of R8 and R9; no step writes them (log 1). -/
  cfg : Config
  /-- `V[0]` to `V[15]` (R20) -/
  v : Vector Byte 16
  /-- `I` (R26) -/
  index : Word
  /-- `pc` (R23) -/
  pc : Word
  /-- `DT` (R28) -/
  dt : Byte
  /-- `ST` (R30) -/
  st : Byte
  /-- `Stack`, the entry pushed last at the head (R31, log 14) -/
  stack : List Word
  /-- `Disp`: rows from the top, cells from the left (R33, log 15) -/
  disp : Display
  /-- `dirty` (R34) -/
  dirty : Bool
  /-- `HALT` (R35) -/
  halt : Bool
  /-- `FAULT` (R35, R241) -/
  fault : Option FaultRecord
  /-- `Mem` (R60), in the canonical form of `Memory.wf` -/
  mem : Memory
  /-- `keys` of the step being run (R37, log 5) -/
  keys : List Bool
  /-- `rnd` of the step being run (R38, log 5) -/
  rnd : Byte
  /-- what the last call of the step port returned (R124, R244, log 6) -/
  reply : StepReply
  /-- what the environment gives the coming steps; when it is empty they take free inputs (log 3) -/
  inputs : List StepInput
  /-- the number of free inputs taken so far (log 3) -/
  clock : Nat
  deriving DecidableEq, Repr

/-- A display of `h` rows of `w` cells, every cell 0 (R42, R200). -/
def blankDisplay (w h : Nat) : Display := List.replicate h (List.replicate w false)

/-- The reset values of R42 under the configuration `c`, with the environment's `inputs` and `clock` given. -/
def State.resetWith (c : Config) (inputs : List StepInput) (clock : Nat) : State where
  cfg := c
  v := c.resetV
  index := c.resetI
  pc := 0x200#16
  dt := c.resetDt
  st := c.resetSt
  stack := []
  disp := blankDisplay c.displayW c.displayH
  dirty := false
  halt := false
  fault := none
  mem := c.initMem
  keys := List.replicate c.keyCount false
  rnd := 0x00#8
  reply := .ok
  inputs := inputs
  clock := clock

/-- The machine right after reset (R42) with the defaults of R8 and R9, nothing loaded, every input free. -/
def State.reset : State := State.resetWith Config.default [] 0

end Sys2Proof.Machine
end

