-- ==== Sys2Proof/Machine/Ops.lean ====
section
/-!
DEFINITION. The named operations over registers, memory, the stack, the display and the timers; raising a fault and trap
entry (R241, R243, R244); the stages of a step before the execute stage (R120 to R123).
-/

namespace Sys2Proof.Machine

/-- What `exec` and `step` answer. -/
abbrev Result := Host.Outcome State Fault Refusal

/-! ### General registers -/

/-- `V[x]` (R12, R20). -/
def State.reg (s : State) (x : RegIdx) : Byte := s.v[x.toNat]'(by omega)

/-- `V[x] <- b` (R12, R20); VF is written like any register (R21). -/
def State.setReg (s : State) (x : RegIdx) (b : Byte) : State := { s with v := s.v.set x.toNat b (by omega) }

/-- `V[0]` to `V[x]`, in order (R184). -/
def State.regsUpTo (s : State) (x : RegIdx) : List Byte := s.v.toList.take (x.toNat + 1)

/-! ### Memory (R60 to R68) -/

/-- What an address no entry lists reads as: INIT_MEM's default (R79, D25, log 11). -/
def unlistedByte : Byte := 0x00#8

/-- The byte at address `a` (R61), for `a <= 4095`; the range check of R61 is `firstOutside`, made before (log 16). -/
def Memory.read : Memory → Nat → Byte
  | [], _ => unlistedByte
  | (k, b) :: m, a => if k = a then b else Memory.read m a

/-- Insert, replace or (for the unlisted byte) remove the entry of `a`, keeping the addresses rising. -/
def Memory.insert : Memory → Nat → Byte → Memory
  | [], a, b => if b = unlistedByte then [] else [(a, b)]
  | (k, c) :: m, a, b =>
    if a < k then (if b = unlistedByte then (k, c) :: m else (a, b) :: (k, c) :: m)
    else if a = k then (if b = unlistedByte then m else (a, b) :: m)
    else (k, c) :: Memory.insert m a b

/-- `Mem[a] <- b` (R62). There is no byte above 4095: every rule checks its range before its first write (R243), so the
first branch is never taken by a meaning (log 16). -/
def Memory.write (m : Memory) (a : Nat) (b : Byte) : Memory := if memSize ≤ a then m else Memory.insert m a b

/-- The bytes `bs` written at `a`, `a + 1`, … in order (R76, R77, R183, R184). -/
def Memory.writeBytes : Memory → Nat → List Byte → Memory
  | m, _, [] => m
  | m, a, b :: bs => Memory.writeBytes (Memory.write m a b) (a + 1) bs

/-- Every address of `m` is at least `lo` and below 4096, they rise, and no entry holds the unlisted byte. -/
def Memory.wfFrom : Nat → Memory → Bool
  | _, [] => true
  | lo, (k, b) :: m => decide (lo ≤ k) && decide (k < memSize) && b != unlistedByte && Memory.wfFrom (k + 1) m

/-- The canonical form of memory: addresses strictly rising and valid (R60), no entry equal to the unlisted byte. -/
def Memory.wf (m : Memory) : Bool := Memory.wfFrom 0 m

/-- The first address above 4095 among `base`, …, `base + count - 1`, if there is one (R183, R184, R185, R201, R186: no
wrap-around). -/
def firstOutside (base : Word) (count : Nat) : Option Word :=
  if count = 0 ∨ base.toNat + (count - 1) ≤ 4095 then none else some (BitVec.ofNat 16 (max base.toNat 4096))

/-! ### The call stack (R31, R32) -/

/-- `SP`, the number of entries (R32). -/
def State.sp (s : State) : Nat := s.stack.length

/-! ### The display (R33) -/

/-- `Disp[px][py]`. -/
def Display.get (d : Display) (px py : Nat) : Bool := (d.getD py []).getD px false

/-- `Disp[px][py] <- c`. -/
def Display.put (d : Display) (px py : Nat) (c : Bool) : Display := d.modify py (fun row => row.set px c)

/-- `d` has `h` rows of `w` cells (R33). -/
def Display.hasShape (w h : Nat) (d : Display) : Bool := d.length == h && d.all (fun row => row.length == w)

/-! ### The timers (R28 to R30, R251) -/

/-- One decrement, clamped at 0 (R251). -/
def countDown (t : Byte) : Byte := if t = 0x00#8 then 0x00#8 else t - 0x01#8

/-- `n` decrements (R251, R252). -/
def countDownBy : Nat → Byte → Byte
  | 0, t => t
  | n + 1, t => countDownBy n (countDown t)

/-- The `tick` port (R251): both timers, nothing else, whether or not `HALT = 1`. -/
def tick (s : State) : State := { s with dt := countDown s.dt, st := countDown s.st }

/-- `n` ticks (R252). -/
def ticks (n : Nat) (s : State) : State := { s with dt := countDownBy n s.dt, st := countDownBy n s.st }

/-! ### Faults (R240 to R247) -/

/-- The codes of R240. -/
def FaultCode.number : FaultCode → Nat
  | .unknownInstruction => 1
  | .stackUnderflow => 2
  | .stackOverflow => 3
  | .fetchOutOfRange => 4
  | .dataOutOfRange => 5
  | .keyIndexOutOfRange => 6

/-- The code of LoadError (R240, R257), which is no outcome of a step. -/
def loadErrorNumber : Nat := 7

/-- Whether the fault halts the engine (R240, R244, R245): all do but UnknownInstruction under UNKNOWN_POLICY = continue. -/
def FaultCode.halts (c : FaultCode) (p : UnknownPolicy) : Bool := !(c == .unknownInstruction && p == .continue)

/-- Trap entry (R244) with the record `r`, from the state R243 leaves. There is no vector, no saved context beyond the record
and no return but the `reset` port (R246). -/
def takeFault (r : FaultRecord) (s : State) : State :=
  if r.code.halts s.cfg.unknownPolicy then { s with halt := true, fault := some r, reply := .fault r }
  else { s with reply := .fault r }

/-- `raise` in the execute stage (R14, R241): the record's word is the instruction's and its pc is `ipc`, two below the
post-fetch `pc` (R23, log 13). -/
def raiseIn (i : Instr) (c : FaultCode) (addr : Option Word) (s : State) : State :=
  takeFault { code := c, word := some (encode i), pc := s.pc - 2, addr := addr } s

/-! ### Inputs of a step (R37, R38, R120, R252) -/

/-- The `n`-th free input: `count` keys, a random byte and a number of ticks, none of them constrained (log 3, log 4). -/
def freeInput (count n : Nat) : StepInput where
  ticks := Config.freeTicks n
  keys := (List.range count).map (Config.freeKey n)
  rnd := Config.freeRnd n

/-- The input of the coming step: the first the environment gives, or a free one. -/
def State.nextInput (s : State) : StepInput :=
  match s.inputs with
  | [] => freeInput s.cfg.keyCount s.clock
  | inp :: _ => inp

/-- The inputs after the coming step has taken its own. -/
def State.dropInput (s : State) : State :=
  match s.inputs with
  | [] => { s with clock := s.clock + 1 }
  | _ :: rest => { s with inputs := rest }

/-- A call of the step port arrives (R120): the ticks before it have fallen (R251), its `keys` and `rnd` are there, and
nothing is reported yet. -/
def State.accept (s : State) : State :=
  { ticks s.nextInput.ticks s.dropInput with keys := s.nextInput.keys, rnd := s.nextInput.rnd, reply := .ok }

/-- The constraints of R8 and R9 on the parameters (D33, D19, D26). -/
def legalConfig (c : Config) : Bool :=
  decide (1 ≤ c.displayW) && decide (1 ≤ c.displayH) && decide (1 ≤ c.keyCount) && decide (c.keyCount ≤ 256) &&
    decide (1 ≤ c.stackDepth) && c.keyScanOrder.isPerm (List.range c.keyCount) && decide (c.font.length ≤ fontMax) &&
    Memory.wf c.initMem

/-! ### The stages of a step (R121 to R123) -/

/-- What the stages before execute lead to. -/
inductive Stage where
  /-- the step is over with this answer -/
  | over (r : Result)
  /-- this instruction executes in this state, the state R122 leaves -/
  | execute (i : Instr) (s : State)

/-- The first address a fetch at `pc` cannot read, if there is one (R122). -/
def fetchOutside (pc : Word) : Option Word :=
  if pc.toNat ≤ 4094 then none else if 4095 < pc.toNat then some pc else some (pc + 1)

/-- The word at `pc` (R122, R91). -/
def fetchedBytes (s : State) : Byte × Byte := (Memory.read s.mem s.pc.toNat, Memory.read s.mem (s.pc.toNat + 1))

/-- Stages 1 to 3 (R121, R122, R123) of a step whose inputs have been accepted. -/
def fetchDecode (s : State) : Stage :=
  let s := { s with dirty := false }
  match fetchOutside s.pc with
  | some a => .over (.next (takeFault { code := .fetchOutOfRange, word := none, pc := s.pc, addr := some a } s))
  | none =>
    let (b1, b2) := fetchedBytes s
    let ipc := s.pc
    let s := { s with pc := s.pc + 2 }
    match decodeBytes b1 b2 with
    | .unknown w => .over (.next (takeFault { code := .unknownInstruction, word := some w, pc := ipc, addr := none } s))
    | .instr i => .execute i s

/-- Everything of a step before the execute stage (R120): a configuration R8 and R9 allow, `HALT = 0`, a snapshot of
KEY_COUNT keys, then stages 1 to 3. -/
def beginStep (s : State) : Stage :=
  if !legalConfig s.cfg then .over (.refused .illegalConfig)
  else if s.halt then .over (.fault (.halted s.fault))
  else if s.nextInput.keys.length ≠ s.cfg.keyCount then .over (.refused .badSnapshot)
  else fetchDecode s.accept

/-- The state with a table word's bytes where the next fetch reads (R64, R122). -/
def placeWord (s : State) (nbits w : Nat) : State :=
  { s with mem := Memory.writeBytes s.mem s.pc.toNat (wordBytes (tableWord nbits w)) }

end Sys2Proof.Machine
end

