-- ==== Sys2Proof/Machine/Flags.lean ====
section
/-!
DEFINITION. The flags written into VF (R21, R150, R157 to R161, R163). There is no other flag storage.
-/

namespace Sys2Proof.Machine

/-- A flag as the byte VF holds: 1 or 0. -/
def flagByte (b : Bool) : Byte := if b then 0x01#8 else 0x00#8

/-- Carry out of bit 7 of `a + b` (R157, R163). -/
def carryFlag (a b : Byte) : Byte := flagByte (decide (255 < a.toNat + b.toNat))

/-- NOT-borrow of `a - b`: 1 when `a >= b`, unsigned (R158, R160, R163). -/
def notBorrowFlag (a b : Byte) : Byte := flagByte (decide (b.toNat ≤ a.toNat))

/-- The bit a right shift of `a` shifts out, bit 0 (R159). -/
def shiftOutRight (a : Byte) : Byte := a &&& 0x01#8

/-- The bit a left shift of `a` shifts out, bit 7 (R161). -/
def shiftOutLeft (a : Byte) : Byte := (a >>> 7) &&& 0x01#8

/-- Where the operands of the result are read, `before` being the state before the flag write and `after` the one after it
(R150). -/
def State.operandsFrom (before after : State) : State :=
  match before.cfg.aluVfOrder with
  | .sequential => after
  | .latched => before

/-- A flag-setting rule of R150: VF <- `flag`, then `V[x] <- result`, whose operands are read as ALU_VF_ORDER says. With
x = 0xF the result overwrites the flag. -/
def State.flagThenResult (s : State) (x : RegIdx) (flag : Byte) (result : State → Byte) : State :=
  let flagged := s.setReg VF flag
  flagged.setReg x (result (s.operandsFrom flagged))

end Sys2Proof.Machine
end

