-- ==== Sys2Proof/Machine/Operands.lean ====
section
/-!
DEFINITION. Operand forms: immediates (R93), the skip (R126), the source of a shift (R159, R161), data at `I + k` (R186), key
lookup and scan (R220, R224).
-/

namespace Sys2Proof.Machine

/-- `zext_16(nnn)` (R93). -/
def addrWord (nnn : Addr) : Word := nnn.zeroExtend 16

/-- `zext_16` of a byte (R11). -/
def byteWord (b : Byte) : Word := b.zeroExtend 16

/-- `pc <- target` (R12). -/
def State.jump (s : State) (target : Word) : State := { s with pc := target }

/-- `if c: Skip()`, one word passed over, modulo 2^16 (R126). -/
def State.skipIf (s : State) (c : Bool) : State := { s with pc := if c then s.pc + 2 else s.pc }

/-- `if SHIFT_USES_VY = 1: V[x] <- V[y]` (R159, R161), after which `V[x]` is the shift's source in both ALU_VF_ORDERs
(log 18). With SHIFT_USES_VY = 0 the register keeps its value. -/
def State.shiftSource (s : State) (x y : RegIdx) : State := s.setReg x (if s.cfg.shiftUsesVy then s.reg y else s.reg x)

/-- An instruction that accesses `count` bytes from `I` on (R186): DataOutOfRange before any write when one lies above 4095
(R61, R62, R243), else `k`. -/
def State.withData (s : State) (i : Instr) (count : Nat) (k : State) : Result :=
  match firstOutside s.index count with
  | some a => .next (raiseIn i .dataOutOfRange (some a) s)
  | none => .next k

/-- The three decimal digits of a byte, hundreds first (R183). -/
def bcdDigits (b : Byte) : List Byte := [b / 100#8, b / 10#8 % 10#8, b % 10#8]

/-- `V[0]` to `V[x]` loaded from `Mem[I]` to `Mem[I + x]` (R185). -/
def State.loadRegs (s : State) (x : RegIdx) : State :=
  { s with v := Vector.ofFn fun k : Fin 16 =>
      if k.val ≤ x.toNat then Memory.read s.mem (s.index.toNat + k.val) else s.v[k.val] }

/-- `if LDST_INCREMENTS_I = 1: I <- (I + x + 1) mod 2^16` (R184, R185). -/
def State.autoIncrement (s : State) (x : RegIdx) : State :=
  { s with index := if s.cfg.ldstIncrementsI then s.index + x.zeroExtend 16 + 1 else s.index }

/-- `keys[k]` of this step's snapshot (R37). -/
def State.keyDown (s : State) (k : Nat) : Bool := s.keys.getD k false

/-- `KeyPressed(V[x])` (R220): KeyIndexOutOfRange for a key number outside the snapshot, else `k` of the key's state. -/
def State.withKey (s : State) (i : Instr) (x : RegIdx) (k : Bool → State) : Result :=
  if s.cfg.keyCount ≤ (s.reg x).toNat then .next (raiseIn i .keyIndexOutOfRange (some (byteWord (s.reg x))) s)
  else .next (k (s.keyDown (s.reg x).toNat))

/-- The first pressed key in KEY_SCAN_ORDER (R224). -/
def State.firstKeyDown (s : State) : Option Nat := s.cfg.keyScanOrder.find? s.keyDown

end Sys2Proof.Machine
end

