-- ==== Sys2Proof/Machine/Alu.lean ====
section
/-!
DEFINITION. The register and ALU instructions of 41_alu.md (R151 to R162).
-/

namespace Sys2Proof.Machine

/-- `LD Vx, nn` (R151). -/
def execLdImm (x : RegIdx) (nn : Byte) (s : State) : Result := .next (s.setReg x nn)

/-- `ADD Vx, nn`: modulo 256, no flag (R152). -/
def execAddImm (x : RegIdx) (nn : Byte) (s : State) : Result := .next (s.setReg x (s.reg x + nn))

/-- `LD Vx, Vy` (R153). -/
def execLdReg (x y : RegIdx) (s : State) : Result := .next (s.setReg x (s.reg y))

/-- `OR Vx, Vy`: VF is not reset (R154). -/
def execOrReg (x y : RegIdx) (s : State) : Result := .next (s.setReg x (s.reg x ||| s.reg y))

/-- `AND Vx, Vy`: VF is not reset (R155). -/
def execAndReg (x y : RegIdx) (s : State) : Result := .next (s.setReg x (s.reg x &&& s.reg y))

/-- `XOR Vx, Vy`: VF is not reset (R156). -/
def execXorReg (x y : RegIdx) (s : State) : Result := .next (s.setReg x (s.reg x ^^^ s.reg y))

/-- `ADD Vx, Vy`: the sum is bound first, in both ALU_VF_ORDERs (R157). -/
def execAddReg (x y : RegIdx) (s : State) : Result :=
  let sum := s.reg x + s.reg y
  .next (s.flagThenResult x (carryFlag (s.reg x) (s.reg y)) fun _ => sum)

/-- `SUB Vx, Vy` (R158). -/
def execSubReg (x y : RegIdx) (s : State) : Result :=
  .next (s.flagThenResult x (notBorrowFlag (s.reg x) (s.reg y)) fun r => r.reg x - r.reg y)

/-- `SHR Vx, Vy` (R159). -/
def execShr (x y : RegIdx) (s : State) : Result :=
  let s := s.shiftSource x y
  .next (s.flagThenResult x (shiftOutRight (s.reg x)) fun r => r.reg x >>> 1)

/-- `SUBN Vx, Vy` (R160). -/
def execSubn (x y : RegIdx) (s : State) : Result :=
  .next (s.flagThenResult x (notBorrowFlag (s.reg y) (s.reg x)) fun r => r.reg y - r.reg x)

/-- `SHL Vx, Vy` (R161). -/
def execShl (x y : RegIdx) (s : State) : Result :=
  let s := s.shiftSource x y
  .next (s.flagThenResult x (shiftOutLeft (s.reg x)) fun r => r.reg x <<< 1)

/-- `RND Vx, nn`: `rnd` is this step's random byte (R162, R38). -/
def execRnd (x : RegIdx) (nn : Byte) (s : State) : Result := .next (s.setReg x (s.rnd &&& nn))

end Sys2Proof.Machine
end

