-- ==== Sys2Proof/Machine/Control.lean ====
section
/-!
DEFINITION. The control-transfer instructions of 40_sequencer_control.md (R127 to R135). `s.pc` is the post-fetch pc (R23).
-/

namespace Sys2Proof.Machine

/-- `SYS nnn`: a no-op that must not raise (R127, R97). -/
def execSys (_nnn : Addr) (s : State) : Result := .next s

/-- `RET`: StackUnderflow when SP = 0, else `pc <- Pop()` (R128). -/
def execRet (s : State) : Result :=
  match s.stack with
  | [] => .next (raiseIn .ret .stackUnderflow none s)
  | top :: rest => .next { s with pc := top, stack := rest }

/-- `JP nnn` (R129). -/
def execJp (nnn : Addr) (s : State) : Result := .next (s.jump (addrWord nnn))

/-- `CALL nnn`: StackOverflow when SP = STACK_DEPTH, else `Push(pc)` and jump (R130). -/
def execCall (nnn : Addr) (s : State) : Result :=
  if s.sp = s.cfg.stackDepth then .next (raiseIn (.call nnn) .stackOverflow none s)
  else .next { s with stack := s.pc :: s.stack, pc := addrWord nnn }

/-- `SE Vx, nn` (R131). -/
def execSeImm (x : RegIdx) (nn : Byte) (s : State) : Result := .next (s.skipIf (s.reg x == nn))

/-- `SNE Vx, nn` (R132). -/
def execSneImm (x : RegIdx) (nn : Byte) (s : State) : Result := .next (s.skipIf (s.reg x != nn))

/-- `SE Vx, Vy` (R133). -/
def execSeReg (x y : RegIdx) (s : State) : Result := .next (s.skipIf (s.reg x == s.reg y))

/-- `SNE Vx, Vy` (R134). -/
def execSneReg (x y : RegIdx) (s : State) : Result := .next (s.skipIf (s.reg x != s.reg y))

/-- `JP V0, nnn`: the sum is not reduced modulo 4096 (R135). -/
def execJpV0 (nnn : Addr) (s : State) : Result := .next (s.jump (addrWord nnn + byteWord (s.reg 0x0#4)))

end Sys2Proof.Machine
end

