-- ==== Sys2Proof/Machine/Display.lean ====
section
/-!
DEFINITION. The display instructions and the sprite engine of 43_display.md (R200, R201).
-/

namespace Sys2Proof.Machine

/-- A draw in progress: the display and whether a drawn 1-bit has met a cell that was 1. -/
structure Canvas where
  /-- `Disp` -/
  disp : Display
  /-- the collision, accumulated with OR (R201) -/
  hit : Bool
  deriving DecidableEq, Repr

/-- Bit `b` of a sprite row from the left: bit 7 is the leftmost (R201, D15). -/
def spriteBit (row : Byte) (b : Nat) : Bool := row.getLsbD (7 - b)

/-- One turn of R201's inner loop at column `px`: nothing at or past the right edge `w` (log 17), else collision and XOR. -/
def drawBit (w px py : Nat) (bit : Bool) (c : Canvas) : Canvas :=
  if w ≤ px then c
  else { disp := Display.put c.disp px py (xor (Display.get c.disp px py) bit),
         hit := c.hit || (Display.get c.disp px py && bit) }

/-- One row: its 8 bits from column `x0` on, left to right (R201). -/
def drawRow (w x0 py : Nat) (row : Byte) (c : Canvas) : Canvas :=
  (List.range 8).foldl (fun c b => drawBit w (x0 + b) py (spriteBit row b) c) c

/-- `rows` rows from row `y0` on, their bytes from address `a` on (R201). -/
def drawRows (w x0 y0 : Nat) (m : Memory) (a rows : Nat) (c : Canvas) : Canvas :=
  (List.range rows).foldl (fun c r => drawRow w x0 (y0 + r) (Memory.read m (a + r)) c) c

/-- The start column, `V[x] mod W` (R201). -/
def State.startX (s : State) (x : RegIdx) : Nat := (s.reg x).toNat % s.cfg.displayW

/-- The start row, `V[y] mod H` (R201). -/
def State.startY (s : State) (y : RegIdx) : Nat := (s.reg y).toNat % s.cfg.displayH

/-- `rows`, the rows drawn: those at or below the bottom edge are dropped and not read (R201, D17). -/
def State.rowsDrawn (s : State) (y : RegIdx) (n : Nibble) : Nat := min n.toNat (s.cfg.displayH - s.startY y)

/-- `CLS`: every cell 0, dirty always set (R200). -/
def execCls (s : State) : Result :=
  .next { s with disp := blankDisplay s.cfg.displayW s.cfg.displayH, dirty := true }

/-- `DRW Vx, Vy, n` (R201). The coordinates are read before VF is written. R202(b)'s VF clause, which the spec derives from this
pseudocode, does not follow from it over a lit cell; the pseudocode is followed (log 23). -/
def execDrw (x y : RegIdx) (n : Nibble) (s : State) : Result :=
  let rows := s.rowsDrawn y n
  let c := drawRows s.cfg.displayW (s.startX x) (s.startY y) s.mem s.index.toNat rows { disp := s.disp, hit := false }
  s.withData (.drw x y n) rows { s.setReg VF (flagByte c.hit) with disp := c.disp, dirty := true }

end Sys2Proof.Machine
end

