-- ==== Sys2Proof/Machine/IndexMemory.lean ====
section
/-!
DEFINITION. The index register and memory instructions of 42_index_memory.md (R180 to R185).
-/

namespace Sys2Proof.Machine

/-- `LD I, nnn` (R180). -/
def execLdI (nnn : Addr) (s : State) : Result := .next { s with index := addrWord nnn }

/-- `ADD I, Vx`: modulo 2048, no flag (R181). The sum is taken exactly, then reduced. -/
def execAddI (x : RegIdx) (s : State) : Result :=
  .next { s with index := BitVec.ofNat 16 ((s.index.toNat + (s.reg x).toNat) % 2048) }

/-- `LD F, Vx`: five bytes a glyph, the low nibble of Vx (R182). -/
def execLdF (x : RegIdx) (s : State) : Result := .next { s with index := byteWord (s.reg x &&& 0x0F#8) * 5#16 }

/-- `LD B, Vx` (R183). -/
def execLdB (x : RegIdx) (s : State) : Result :=
  s.withData (.ldB x) 3 { s with mem := Memory.writeBytes s.mem s.index.toNat (bcdDigits (s.reg x)) }

/-- `LD [I], Vx` (R184). -/
def execLdMemVx (x : RegIdx) (s : State) : Result :=
  s.withData (.ldMemVx x) (x.toNat + 1)
    ({ s with mem := Memory.writeBytes s.mem s.index.toNat (s.regsUpTo x) }.autoIncrement x)

/-- `LD Vx, [I]` (R185). -/
def execLdVxMem (x : RegIdx) (s : State) : Result :=
  s.withData (.ldVxMem x) (x.toNat + 1) ((s.loadRegs x).autoIncrement x)

end Sys2Proof.Machine
end

