-- ==== Sys2Proof/Machine/KeysTimers.lean ====
section
/-!
DEFINITION. The key and timer instructions of 44_keys_timers.md (R221 to R226).
-/

namespace Sys2Proof.Machine

/-- `SKP Vx` (R221). -/
def execSkp (x : RegIdx) (s : State) : Result := s.withKey (.skp x) x fun down => s.skipIf down

/-- `SKNP Vx` (R222). -/
def execSknp (x : RegIdx) (s : State) : Result := s.withKey (.sknp x) x fun down => s.skipIf !down

/-- `LD Vx, DT` (R223). -/
def execLdVxDt (x : RegIdx) (s : State) : Result := .next (s.setReg x s.dt)

/-- `LD Vx, K`: the first pressed key, or `pc` back to this word (R224). -/
def execLdVxK (x : RegIdx) (s : State) : Result :=
  .next (match s.firstKeyDown with
    | some k => s.setReg x (BitVec.ofNat 8 k)
    | none => { s with pc := s.pc - 2 })

/-- `LD DT, Vx` (R225). -/
def execLdDtVx (x : RegIdx) (s : State) : Result := .next { s with dt := s.reg x }

/-- `LD ST, Vx` (R226). -/
def execLdStVx (x : RegIdx) (s : State) : Result := .next { s with st := s.reg x }

end Sys2Proof.Machine
end

