-- ==== Sys2Proof/Machine/Step.lean ====
section
/-! DEFINITION. One call of the step port (R120): the stages of `beginStep`, then the execute stage. -/

namespace Sys2Proof.Machine

/-- One step (R120 to R124). -/
def step (s : State) : Host.Outcome State Fault Refusal :=
  match beginStep s with
  | .over r => r
  | .execute i s' => exec i s'

/-- `s` with a table word where `step` fetches next (log 19). -/
def State.withFetchWord (s : State) (nbits w : Nat) : State := placeWord s nbits w

end Sys2Proof.Machine
end

