-- ==== Sys2Proof/Machine/Ports.lean ====
section
/-!
DEFINITION. The engine's ports (R40) and the boot sequence (R272). `step` of Machine/Step.lean is the step port with the inputs
the environment gives; `call` is any one of the five input ports as a transaction.
-/

namespace Sys2Proof.Machine

/-- What a loader returns (R76, R77, R257). -/
inductive LoadReply where
  /-- the image is in memory -/
  | ok
  /-- LoadError (code 7): the image is too long, nothing is written, HALT stays -/
  | loadError
  deriving DecidableEq, Repr

/-- `load_font` (R76): at address 0, at most 512 bytes. -/
def loadFont (image : List Byte) (s : State) : State × LoadReply :=
  if fontMax < image.length then (s, .loadError)
  else ({ s with mem := Memory.writeBytes s.mem fontBase image }, .ok)

/-- `load_program` (R77): at address 512, at most 3584 bytes. -/
def loadProgram (image : List Byte) (s : State) : State × LoadReply :=
  if programMax < image.length then (s, .loadError)
  else ({ s with mem := Memory.writeBytes s.mem programBase image }, .ok)

/-- The `reset` port (R40, R42, R270): every element at its reset value under this run's configuration; what the
environment gives later steps is not the engine's and stays (log 22). -/
def resetPort (s : State) : State := State.resetWith s.cfg s.inputs s.clock

/-- A call of an input port (R40). -/
inductive PortCall where
  /-- `reset` -/
  | reset
  /-- `load_font` -/
  | loadFont (image : List Byte)
  /-- `load_program` -/
  | loadProgram (image : List Byte)
  /-- `step(keys, rnd)` -/
  | step (keys : List Bool) (rnd : Byte)
  /-- `tick` -/
  | tick
  deriving DecidableEq, Repr

/-- What a call returns. -/
inductive PortReply where
  /-- `reset` and `tick` return nothing -/
  | done
  /-- a loader's reply -/
  | load (r : LoadReply)
  /-- a step's reply; while halted, the held fault (R120) -/
  | step (r : StepReply)
  /-- the model rejects the call: an illegal configuration, a snapshot of the wrong length (log 9, log 10) -/
  | rejected
  deriving DecidableEq, Repr

/-- The step port with these inputs and no tick before it. -/
def stepWith (keys : List Bool) (rnd : Byte) (s : State) : Result :=
  step { s with inputs := { ticks := 0, keys := keys, rnd := rnd } :: s.inputs }

/-- One transaction (R40): the state after it and what it returns. -/
def call (c : PortCall) (s : State) : State × PortReply :=
  match c with
  | .reset => (resetPort s, .done)
  | .loadFont image => ((loadFont image s).1, .load (loadFont image s).2)
  | .loadProgram image => ((loadProgram image s).1, .load (loadProgram image s).2)
  | .step keys rnd =>
    match stepWith keys rnd s with
    | .next t => (t, .step t.reply)
    | .fault (.halted (some r)) => (s, .step (.fault r))
    | .fault (.halted none) => (s, .rejected)
    | .refused _ => (s, .rejected)
  | .tick => (tick s, .done)

/-- The boot sequence of R272 up to the first step: reset, then the font of the configuration and the program. -/
def boot (program : List Byte) (s : State) : State × LoadReply :=
  match loadFont s.cfg.font (resetPort s) with
  | (t, .ok) => loadProgram program t
  | (t, .loadError) => (t, .loadError)

end Sys2Proof.Machine
end

