-- ==== Sys2Proof/Safety.lean ====
section
/-!
DEFINITION. The terms claims are stated in: the machine's invariants, what stays as it was, the conditions under which a step
runs, the cells a sprite covers.
-/

namespace Sys2Proof.Machine

/-! ### Invariants -/

/-- The shape every reachable state has: a configuration R8 and R9 allow, memory in its canonical form with no byte above 4095
(R60), at most STACK_DEPTH stack entries (R31, R32), a display of DISPLAY_H rows of DISPLAY_W cells (R33), a FAULT record exactly
when HALT = 1 (R35), a snapshot of KEY_COUNT keys (R37). -/
abbrev State.Inv (s : State) : Prop :=
  legalConfig s.cfg = true ∧ Memory.wf s.mem = true ∧ s.sp ≤ s.cfg.stackDepth ∧
    Display.hasShape s.cfg.displayW s.cfg.displayH s.disp = true ∧ s.halt = s.fault.isSome ∧ s.keys.length = s.cfg.keyCount

/-- The bounds of R25 and R27: `pc` at most 0x10FE, `I` at most 0x1000, every saved pc at most 0x1000. -/
abbrev State.AddressBounds (s : State) : Prop :=
  s.pc.toNat ≤ 0x10FE ∧ s.index.toNat ≤ 0x1000 ∧ ∀ e ∈ s.stack, e.toNat ≤ 0x1000

/-! ### Frames (R125) -/

/-- The elements of the state an instruction can write. `latch` is HALT, FAULT and the step's reply. -/
inductive Part where
  | regs | index | pc | dt | st | stack | disp | dirty | latch | mem
  deriving DecidableEq, Repr

/-- Every element of the state but those named is in `t` what it was in `s`: memory byte by byte, and the configuration and the
inputs always. -/
def sameBut (ps : List Part) (s t : State) : Prop :=
  (Part.regs ∈ ps ∨ ∀ r, t.reg r = s.reg r) ∧ (Part.index ∈ ps ∨ t.index = s.index) ∧ (Part.pc ∈ ps ∨ t.pc = s.pc) ∧
    (Part.dt ∈ ps ∨ t.dt = s.dt) ∧ (Part.st ∈ ps ∨ t.st = s.st) ∧ (Part.stack ∈ ps ∨ t.stack = s.stack) ∧
    (Part.disp ∈ ps ∨ t.disp = s.disp) ∧ (Part.dirty ∈ ps ∨ t.dirty = s.dirty) ∧
    (Part.latch ∈ ps ∨ t.halt = s.halt ∧ t.fault = s.fault ∧ t.reply = s.reply) ∧
    (Part.mem ∈ ps ∨ ∀ a, Memory.read t.mem a = Memory.read s.mem a) ∧
    t.cfg = s.cfg ∧ t.keys = s.keys ∧ t.rnd = s.rnd ∧ t.inputs = s.inputs ∧ t.clock = s.clock

/-- Every general register but those named is what it was. -/
def sameRegsBut (ds : List RegIdx) (s t : State) : Prop := ∀ r, r ∉ ds → t.reg r = s.reg r

/-- Every byte outside `a`, …, `a + n - 1` is what it was. -/
def sameMemBut (a n : Nat) (s t : State) : Prop :=
  ∀ b, b < a ∨ a + n ≤ b → Memory.read t.mem b = Memory.read s.mem b

/-- The record of a fault `c` of the execute stage of `i` from the post-fetch state `s` (R241): `i`'s word, the address of `i`. -/
def recordOf (i : Instr) (c : FaultCode) (addr : Option Word) (s : State) : FaultRecord :=
  { code := c, word := some (encode i), pc := s.pc - 2, addr := addr }

/-- `t` is `s` with the fault `r` taken (R244) and nothing else changed (R243). -/
def faulted (r : FaultRecord) (s t : State) : Prop :=
  t.halt = true ∧ t.fault = some r ∧ t.reply = .fault r ∧ sameBut [.latch] s t

/-! ### When a step runs (R120) -/

/-- The step port is called as R41 asks and the engine is not halted. -/
def State.Ready (s : State) : Prop :=
  legalConfig s.cfg = true ∧ s.halt = false ∧ s.nextInput.keys.length = s.cfg.keyCount

/-- The state in which the fetched instruction executes: the inputs accepted, dirty cleared (R121), pc advanced (R122). -/
def State.fetched (s : State) : State := { s.accept with dirty := false, pc := s.pc + 2 }

/-- The two bytes at `pc`, decoded (R91, R123). -/
def State.decodedAtPc (s : State) : Decoded :=
  decodeBytes (Memory.read s.mem s.pc.toNat) (Memory.read s.mem (s.pc.toNat + 1))

/-- The state under another ALU_VF_ORDER (R150). -/
def State.withOrder (s : State) (o : AluVfOrder) : State := { s with cfg := { s.cfg with aluVfOrder := o } }

/-! ### The sprite of a draw (R201, R202) -/

/-- The sprite `DRW Vx, Vy, n` draws from `s` has a 1-bit at the cell (px, py): the cell lies at or right of the start column
and at or below the start row, within 8 columns and the rows drawn. -/
def State.spriteAt (s : State) (x y : RegIdx) (n : Nibble) (px py : Nat) : Bool :=
  decide (s.startX x ≤ px) && decide (px < s.startX x + 8) && decide (s.startY y ≤ py) &&
    decide (py < s.startY y + s.rowsDrawn y n) &&
    (Memory.read s.mem (s.index.toNat + (py - s.startY y))).getLsbD (7 - (px - s.startX x))

/-- Every row drawn is read from an address up to 4095 (R201). -/
def State.spriteInRange (s : State) (y : RegIdx) (n : Nibble) : Prop :=
  s.rowsDrawn y n = 0 ∨ s.index.toNat + (s.rowsDrawn y n - 1) ≤ 4095

/-- The cell (px, py) lies on the display. -/
def State.onDisplay (s : State) (px py : Nat) : Prop := px < s.cfg.displayW ∧ py < s.cfg.displayH

end Sys2Proof.Machine

namespace Sys2Proof

/-- The words `w` with `w & mask = value`, and only they, decode to the instruction of this form with their fields (R95). -/
def rowDecodes (value mask : Word) (form : Word → Instr) : Prop := ∀ w : Word, w &&& mask = value ↔ decode w = .instr (form w)

/-! ### Who writes what -/

/-- The instructions whose rule writes VF as a flag (R157 to R161, R201). -/
def Instr.writesFlag : Instr → Bool
  | .addReg _ _ | .subReg _ _ | .shr _ _ | .subn _ _ | .shl _ _ | .drw _ _ _ => true
  | .sys _ | .cls | .ret | .jp _ | .call _ | .seImm _ _ | .sneImm _ _ | .seReg _ _ | .ldImm _ _ | .addImm _ _ | .ldReg _ _
  | .orReg _ _ | .andReg _ _ | .xorReg _ _ | .sneReg _ _ | .ldI _ | .jpV0 _ | .rnd _ _ | .skp _ | .sknp _ | .ldVxDt _
  | .ldVxK _ | .ldDtVx _ | .ldStVx _ | .addI _ | .ldF _ | .ldB _ | .ldMemVx _ | .ldVxMem _ => false

/-- `r` is a destination register of the instruction (R22). -/
def Instr.writesReg (r : RegIdx) : Instr → Bool
  | .ldImm x _ | .addImm x _ | .ldReg x _ | .orReg x _ | .andReg x _ | .xorReg x _ | .addReg x _ | .subReg x _ | .shr x _
  | .subn x _ | .shl x _ | .rnd x _ | .ldVxDt x | .ldVxK x => r == x
  | .ldVxMem x => decide (r.toNat ≤ x.toNat)
  | .sys _ | .cls | .ret | .jp _ | .call _ | .seImm _ _ | .sneImm _ _ | .seReg _ _ | .sneReg _ _ | .ldI _ | .jpV0 _
  | .drw _ _ _ | .skp _ | .sknp _ | .ldDtVx _ | .ldStVx _ | .addI _ | .ldF _ | .ldB _ | .ldMemVx _ => false

end Sys2Proof
end

