-- ==== Sys2Proof/Certificates/Slice0/Obligations.lean ====
section
/-!
DEFINITION. The statements for the provers. In every statement about `exec`, `s` is the post-fetch state: `s.pc` is the
instruction's address plus 2 (R23).
-/

open Sys2Proof Sys2Proof.Machine

/-! ### Encoding (30_encoding.md) -/

/-- R92, R95: no bit of an encoding is dropped, for every instruction and every operand its row admits. -/
def Obligations.DecodeOfEncodeIsTheInstruction : Prop :=
  ∀ i : Instr, i.wf = true → decode (encode i) = .instr i

/-- R92, R95, R98: a word that decodes is the encoding of what it decodes to, with its ignored fields, and that is well
formed. -/
def Obligations.EncodeOfDecodeIsTheWord : Prop :=
  ∀ (w : Word) (i : Instr), decode w = .instr i → i.wf = true ∧ encode i = w

/-- R99: the rows of R95 are pairwise disjoint, and the decoder answers the one row that selects the word, or unknown where
none does. -/
def Obligations.EveryWordIsOneRowOrUnknown : Prop :=
  ∀ w : Word,
    opcodeTable.Pairwise (fun r r' => ¬ (r.selects w = true ∧ r'.selects w = true)) ∧
      ((∃ i, decode w = .instr i ∧ i.row ∈ opcodeTable ∧ i.row.selects w = true) ∨
        (decode w = .unknown w ∧ ∀ r ∈ opcodeTable, r.selects w = false))

/-- R96: the unknown-instruction space, band by band. -/
def Obligations.UnknownWordsAreTheBandsOfR96 : Prop :=
  ∀ w : Word, decode w = .unknown w ↔
    (w.toNat ≤ 0x00FF ∧ w ≠ 0x00E0#16 ∧ w ≠ 0x00EE#16) ∨
    (fieldOp w = 0x5#4 ∧ fieldN w ≠ 0x0#4) ∨
    (fieldOp w = 0x8#4 ∧ fieldN w ∈ [0x8#4, 0x9#4, 0xA#4, 0xB#4, 0xC#4, 0xD#4, 0xF#4]) ∨
    (fieldOp w = 0x9#4 ∧ fieldN w ≠ 0x0#4) ∨
    (fieldOp w = 0xE#4 ∧ fieldNn w ∉ [0x9E#8, 0xA1#8]) ∨
    (fieldOp w = 0xF#4 ∧
      fieldNn w ∉ [0x07#8, 0x0A#8, 0x15#8, 0x18#8, 0x1E#8, 0x29#8, 0x33#8, 0x55#8, 0x65#8])

/-- R91, R95: example words of the spec, one or more of each family, from their two bytes in memory order. -/
def Obligations.ExampleWordsDecode : Prop :=
  decodeBytes 0x12#8 0x34#8 = .instr (.jp 0x234#12) ∧ decodeBytes 0x33#8 0x42#8 = .instr (.seImm 0x3#4 0x42#8) ∧
  decodeBytes 0x81#8 0x24#8 = .instr (.addReg 0x1#4 0x2#4) ∧ decodeBytes 0x81#8 0x2E#8 = .instr (.shl 0x1#4 0x2#4) ∧
  decodeBytes 0xA2#8 0xF0#8 = .instr (.ldI 0x2F0#12) ∧ decodeBytes 0xF2#8 0x55#8 = .instr (.ldMemVx 0x2#4) ∧
  decodeBytes 0xD0#8 0x12#8 = .instr (.drw 0x0#4 0x1#4 0x2#4) ∧ decodeBytes 0x00#8 0xE0#8 = .instr .cls ∧
  decodeBytes 0xE1#8 0x9E#8 = .instr (.skp 0x1#4) ∧ decodeBytes 0xF3#8 0x0A#8 = .instr (.ldVxK 0x3#4) ∧
  decodeBytes 0x50#8 0x01#8 = .unknown 0x5001#16

/-! ### The step (R120 to R124) and its faults (R240 to R247) -/

/-- R120 to R124: a step runs the instruction the bytes at pc decode to, in the state the fetch leaves. -/
def Obligations.StepExecutesTheDecodedInstruction : Prop :=
  ∀ (s : State) (i : Instr), s.Ready → s.pc.toNat ≤ 4094 → s.decodedAtPc = .instr i → step s = exec i s.fetched

/-- R121, R122, R37, R38, R251, R252: the state an instruction executes in. The ticks before the step are the model's way of
giving the environment's ticks (log 4), the inputs its way of giving the step's (log 3). -/
def Obligations.FetchedStateIsTheStateBeforeTheStep : Prop :=
  ∀ s : State,
    s.fetched.pc = s.pc + 2 ∧ s.fetched.dirty = false ∧ s.fetched.keys = s.nextInput.keys ∧ s.fetched.rnd = s.nextInput.rnd ∧
    s.fetched.reply = .ok ∧
    s.fetched.dt.toNat = s.dt.toNat - s.nextInput.ticks ∧ s.fetched.st.toNat = s.st.toNat - s.nextInput.ticks ∧
    (∀ r, s.fetched.reg r = s.reg r) ∧ (∀ a, Memory.read s.fetched.mem a = Memory.read s.mem a) ∧
    s.fetched.index = s.index ∧ s.fetched.stack = s.stack ∧ s.fetched.disp = s.disp ∧ s.fetched.halt = s.halt ∧
    s.fetched.fault = s.fault ∧ s.fetched.cfg = s.cfg

/-- R122, R241, R243, R244: a fetch whose second byte lies past the array halts the engine, pc not advanced, the record naming
the first address that cannot be read. -/
def Obligations.FetchPastMemoryHaltsWithoutAdvancing : Prop :=
  ∀ s : State, s.Ready → 4094 < s.pc.toNat →
    ∃ t, step s = .next t ∧ t.pc = s.pc ∧ t.dirty = false ∧
      faulted { code := .fetchOutOfRange, word := none, pc := s.pc,
                addr := some (if 4095 < s.pc.toNat then s.pc else s.pc + 1) } { s.accept with dirty := false } t

/-- R123, R244, R245: an unknown word halts the engine under `halt`, and is only reported under `continue`; pc is past it and
nothing else has changed. -/
def Obligations.UnknownWordFollowsThePolicy : Prop :=
  ∀ (s : State) (w : Word), s.Ready → s.pc.toNat ≤ 4094 → s.decodedAtPc = .unknown w →
    let r : FaultRecord := { code := .unknownInstruction, word := some w, pc := s.pc, addr := none }
    (s.cfg.unknownPolicy = .halt → ∃ t, step s = .next t ∧ faulted r s.fetched t) ∧
    (s.cfg.unknownPolicy = .continue →
      ∃ t, step s = .next t ∧ t.reply = .fault r ∧ t.halt = false ∧ t.fault = s.fault ∧ sameBut [.latch] s.fetched t)

/-- R120, R35: while HALT = 1 the engine has no transition; the held FAULT is what the port returns. -/
def Obligations.HaltedEngineTakesNoStep : Prop :=
  ∀ s : State, legalConfig s.cfg = true → s.halt = true →
    step s = .fault (.halted s.fault) ∧
    (∀ r keys rnd, s.fault = some r → call (.step keys rnd) s = (s, .step (.fault r)))

/-- R246, R247: no port call but `reset` clears HALT or changes the record held, and `reset` clears both. -/
def Obligations.OnlyResetLeavesHalt : Prop :=
  ∀ (c : PortCall) (s : State), s.halt = true →
    (c ≠ .reset → (call c s).1.halt = true ∧ (call c s).1.fault = s.fault) ∧
    (c = .reset → (call c s).1.halt = false ∧ (call c s).1.fault = none)

/-- R243: a fetch fault leaves every element as it was before the step but dirty = 0; a decode or execute fault leaves the
state as the fetch left it. -/
def Obligations.FaultsArePrecise : Prop :=
  ∀ s t : State, step s = .next t → t.halt = true →
    ∃ r, t.fault = some r ∧
      (r.code = .fetchOutOfRange → t.dirty = false ∧ sameBut [.dirty, .latch] s.accept t) ∧
      (r.code ≠ .fetchOutOfRange → sameBut [.latch] s.fetched t)

/-- R241: what the record of a halting fault holds. -/
def Obligations.FaultRecordNamesTheInstruction : Prop :=
  ∀ (s t : State) (r : FaultRecord), step s = .next t → t.halt = true → t.fault = some r →
    r.pc = s.pc ∧
    r.word = (if r.code = .fetchOutOfRange then none
              else some (assemble (Memory.read s.mem s.pc.toNat) (Memory.read s.mem (s.pc.toNat + 1)))) ∧
    (r.code ∈ [FaultCode.unknownInstruction, .stackUnderflow, .stackOverflow] → r.addr = none) ∧
    (r.code = .fetchOutOfRange → r.addr = some (if 4095 < s.pc.toNat then s.pc else s.pc + 1)) ∧
    (r.code = .dataOutOfRange → r.addr = some (BitVec.ofNat 16 (max s.index.toNat 4096))) ∧
    (r.code = .keyIndexOutOfRange → ∀ w, r.word = some w →
      s.cfg.keyCount ≤ (s.reg (fieldX w)).toNat ∧ r.addr = some (byteWord (s.reg (fieldX w))))

/-- R34, R121, R200, R201: after a step dirty is 1 exactly when the step executed a CLS, or a DRW that did not fault. -/
def Obligations.DirtyIsSetByClsAndDrwOnly : Prop :=
  ∀ s t : State, step s = .next t →
    (t.dirty = true ↔
      ∃ i, s.pc.toNat ≤ 4094 ∧ s.decodedAtPc = .instr i ∧
        (i = .cls ∨ ∃ x y n, i = .drw x y n ∧ s.spriteInRange y n))

/-! ### Who writes what (R125) -/

/-- R31: only 2nnn pushes and only 00EE pops. -/
def Obligations.OnlyCallAndRetChangeTheStack : Prop :=
  ∀ (i : Instr) (s t : State), exec i s = .next t → t.stack ≠ s.stack →
    (∃ nnn, i = .call nnn ∧ t.stack = s.pc :: s.stack) ∨ (i = .ret ∧ ∃ top, s.stack = top :: t.stack)

/-- R68: of the instructions, memory is changed only by Fx33 and Fx55. -/
def Obligations.OnlyFx33AndFx55WriteMemory : Prop :=
  ∀ (i : Instr) (s t : State), exec i s = .next t → (∀ x, i ≠ .ldB x) → (∀ x, i ≠ .ldMemVx x) →
    ∀ a, Memory.read t.mem a = Memory.read s.mem a

/-- R33, R34: the display is changed only by 00E0 and Dxyn. -/
def Obligations.OnlyClsAndDrwChangeTheDisplay : Prop :=
  ∀ (i : Instr) (s t : State), exec i s = .next t → i ≠ .cls → (∀ x y n, i ≠ .drw x y n) →
    t.disp = s.disp ∧ t.dirty = s.dirty

/-- R28 to R30: of the instructions, only Fx15 writes DT and only Fx18 writes ST. -/
def Obligations.NoInstructionCountsTheTimers : Prop :=
  ∀ (i : Instr) (s t : State), exec i s = .next t →
    (t.dt = s.dt ∨ ∃ x, i = .ldDtVx x ∧ t.dt = s.reg x) ∧ (t.st = s.st ∨ ∃ x, i = .ldStVx x ∧ t.st = s.reg x)

/-- R26: I is written by Annn, Fx1E, Fx29, and by Fx55 and Fx65 when LDST_INCREMENTS_I = 1. -/
def Obligations.IndexIsWrittenOnlyByItsInstructions : Prop :=
  ∀ (i : Instr) (s t : State), exec i s = .next t → t.index ≠ s.index →
    (∃ nnn, i = .ldI nnn) ∨ (∃ x, i = .addI x) ∨ (∃ x, i = .ldF x) ∨
      (s.cfg.ldstIncrementsI = true ∧ ∃ x, i = .ldMemVx x ∨ i = .ldVxMem x)

/-- R125, R22: a general register keeps its value unless the instruction's rule names it: its destination, or VF as the flag. -/
def Obligations.RegistersAreWrittenOnlyByTheirRules : Prop :=
  ∀ (i : Instr) (s t : State) (r : RegIdx), exec i s = .next t → i.writesReg r = false → (r = VF → i.writesFlag = false) →
    t.reg r = s.reg r

/-- R36: no port call writes the configuration. -/
def Obligations.ConfigurationIsFixed : Prop :=
  ∀ (c : PortCall) (s : State), (call c s).1.cfg = s.cfg

/-- R37, R38: only Cxnn reads the random byte; only Ex9E, ExA1 and Fx0A read the key snapshot. -/
def Obligations.InputsAreReadOnlyByTheirInstructions : Prop :=
  ∀ (i : Instr) (s t : State), exec i s = .next t →
    (∀ b : Byte, (∀ x nn, i ≠ .rnd x nn) → exec i { s with rnd := b } = .next { t with rnd := b }) ∧
    (∀ keys : List Bool, (∀ x, i ≠ .skp x) → (∀ x, i ≠ .sknp x) → (∀ x, i ≠ .ldVxK x) →
      exec i { s with keys := keys } = .next { t with keys := keys })

/-- R226: Fx18 and its word; no instruction reads ST back: whatever ST holds, an instruction that goes on goes on, to the same
state but for ST. -/
def Obligations.SoundTimerIsSetByFx18AndReadByNone : Prop :=
  rowDecodes 0xF018#16 0xF0FF#16 (fun w => .ldStVx (fieldX w)) ∧
  (∀ (x : RegIdx) (s : State), ∃ t, exec (.ldStVx x) s = .next t ∧ t.st = s.reg x ∧ sameBut [.st] s t) ∧
  ∀ (i : Instr) (s t : State) (b : Byte), exec i s = .next t → ∃ b', exec i { s with st := b } = .next { t with st := b' }

/-! ### Sequencer instructions (40_sequencer_control.md) -/

/-- R127, R129, R135: SYS does nothing; JP and JP V0 write pc only, the sum of JP V0 not reduced modulo 4096. -/
def Obligations.SysAndJumps : Prop :=
  ∀ (nnn : Addr) (s : State),
    exec (.sys nnn) s = .next s ∧
    (∃ t, exec (.jp nnn) s = .next t ∧ t.pc.toNat = nnn.toNat ∧ sameBut [.pc] s t) ∧
    (∃ t, exec (.jpV0 nnn) s = .next t ∧ t.pc.toNat = nnn.toNat + (s.reg 0x0#4).toNat ∧ sameBut [.pc] s t)

/-- R130: a call pushes the post-fetch pc, or with STACK_DEPTH entries raises StackOverflow. -/
def Obligations.CallPushesOrOverflows : Prop :=
  ∀ (nnn : Addr) (s : State),
    (s.sp ≠ s.cfg.stackDepth →
      ∃ t, exec (.call nnn) s = .next t ∧ t.pc.toNat = nnn.toNat ∧ t.stack = s.pc :: s.stack ∧ sameBut [.pc, .stack] s t) ∧
    (s.sp = s.cfg.stackDepth →
      ∃ t, exec (.call nnn) s = .next t ∧ faulted (recordOf (.call nnn) .stackOverflow none s) s t)

/-- R128: a return pops pc, or with an empty stack raises StackUnderflow. -/
def Obligations.ReturnPopsOrUnderflows : Prop :=
  ∀ s : State,
    (∀ top rest, s.stack = top :: rest →
      ∃ t, exec .ret s = .next t ∧ t.pc = top ∧ t.stack = rest ∧ sameBut [.pc, .stack] s t) ∧
    (s.sp = 0 → ∃ t, exec .ret s = .next t ∧ faulted (recordOf .ret .stackUnderflow none s) s t)

/-- R131, R132: the skips on an immediate and their words. A skip adds 2 to the post-fetch pc (R126). -/
def Obligations.SkipsOnImmediate : Prop :=
  rowDecodes 0x3000#16 0xF000#16 (fun w => .seImm (fieldX w) (fieldNn w)) ∧
  rowDecodes 0x4000#16 0xF000#16 (fun w => .sneImm (fieldX w) (fieldNn w)) ∧
  ∀ (x : RegIdx) (nn : Byte) (s : State),
    (∃ t, exec (.seImm x nn) s = .next t ∧ t.pc = (if s.reg x = nn then s.pc + 2 else s.pc) ∧ sameBut [.pc] s t) ∧
    (∃ t, exec (.sneImm x nn) s = .next t ∧ t.pc = (if s.reg x = nn then s.pc else s.pc + 2) ∧ sameBut [.pc] s t)

/-- R133, R134: the skips on two registers, their words, and the words of their op-classes with n ≠ 0, which are unknown. -/
def Obligations.SkipsOnRegisters : Prop :=
  rowDecodes 0x5000#16 0xF00F#16 (fun w => .seReg (fieldX w) (fieldY w)) ∧
  rowDecodes 0x9000#16 0xF00F#16 (fun w => .sneReg (fieldX w) (fieldY w)) ∧
  (∀ w : Word, fieldOp w = 0x5#4 ∨ fieldOp w = 0x9#4 → fieldN w ≠ 0x0#4 → decode w = .unknown w) ∧
  ∀ (x y : RegIdx) (s : State),
    (∃ t, exec (.seReg x y) s = .next t ∧ t.pc = (if s.reg x = s.reg y then s.pc + 2 else s.pc) ∧ sameBut [.pc] s t) ∧
    (∃ t, exec (.sneReg x y) s = .next t ∧ t.pc = (if s.reg x = s.reg y then s.pc else s.pc + 2) ∧ sameBut [.pc] s t)

/-! ### Register and ALU instructions (41_alu.md) -/

/-- R151, R152, R153: loads, and the immediate add modulo 256, which sets no flag; and their words. -/
def Obligations.LoadsAndImmediateAdd : Prop :=
  rowDecodes 0x6000#16 0xF000#16 (fun w => .ldImm (fieldX w) (fieldNn w)) ∧
  rowDecodes 0x7000#16 0xF000#16 (fun w => .addImm (fieldX w) (fieldNn w)) ∧
  rowDecodes 0x8000#16 0xF00F#16 (fun w => .ldReg (fieldX w) (fieldY w)) ∧
  ∀ (x y : RegIdx) (nn : Byte) (s : State),
    (∃ t, exec (.ldImm x nn) s = .next t ∧ t.reg x = nn ∧ sameRegsBut [x] s t ∧ sameBut [.regs] s t) ∧
    (∃ t, exec (.addImm x nn) s = .next t ∧ (t.reg x).toNat = ((s.reg x).toNat + nn.toNat) % 256 ∧
      sameRegsBut [x] s t ∧ sameBut [.regs] s t) ∧
    (∃ t, exec (.ldReg x y) s = .next t ∧ t.reg x = s.reg y ∧ sameRegsBut [x] s t ∧ sameBut [.regs] s t)

/-- R154, R155, R156: the bitwise operations, bit by bit, and their words; VF is not reset. -/
def Obligations.BitwiseOperations : Prop :=
  rowDecodes 0x8001#16 0xF00F#16 (fun w => .orReg (fieldX w) (fieldY w)) ∧
  rowDecodes 0x8002#16 0xF00F#16 (fun w => .andReg (fieldX w) (fieldY w)) ∧
  rowDecodes 0x8003#16 0xF00F#16 (fun w => .xorReg (fieldX w) (fieldY w)) ∧
  ∀ (x y : RegIdx) (s : State),
    (∃ t, exec (.orReg x y) s = .next t ∧
      (∀ b, (t.reg x).getLsbD b = ((s.reg x).getLsbD b || (s.reg y).getLsbD b)) ∧ sameRegsBut [x] s t ∧ sameBut [.regs] s t) ∧
    (∃ t, exec (.andReg x y) s = .next t ∧
      (∀ b, (t.reg x).getLsbD b = ((s.reg x).getLsbD b && (s.reg y).getLsbD b)) ∧ sameRegsBut [x] s t ∧ sameBut [.regs] s t) ∧
    (∃ t, exec (.xorReg x y) s = .next t ∧
      (∀ b, (t.reg x).getLsbD b = xor ((s.reg x).getLsbD b) ((s.reg y).getLsbD b)) ∧ sameRegsBut [x] s t ∧ sameBut [.regs] s t)

/-- R162: the random byte of the step, masked. -/
def Obligations.RandomByteIsMasked : Prop :=
  ∀ (x : RegIdx) (nn : Byte) (s : State),
    ∃ t, exec (.rnd x nn) s = .next t ∧ (∀ b, (t.reg x).getLsbD b = (s.rnd.getLsbD b && nn.getLsbD b)) ∧
      sameRegsBut [x] s t ∧ sameBut [.regs] s t

/-- R157: modulo 256 with the carry in VF; the result stays in VF when x = 0xF; the same under both ALU_VF_ORDERs. -/
def Obligations.AddWithCarry : Prop :=
  ∀ (x y : RegIdx) (s : State),
    ∃ t, exec (.addReg x y) s = .next t ∧ (t.reg x).toNat = ((s.reg x).toNat + (s.reg y).toNat) % 256 ∧
      (x ≠ VF → (t.reg VF).toNat = if 255 < (s.reg x).toNat + (s.reg y).toNat then 1 else 0) ∧
      sameRegsBut [x, VF] s t ∧ sameBut [.regs] s t

/-- R158, R150: NOT-borrow in VF, the difference modulo 256 in V[x]; under `sequential` an operand that is VF is read as the
new flag, under `latched` as it was. -/
def Obligations.SubtractWithBorrow : Prop :=
  ∀ (x y : RegIdx) (s : State),
    let a := (s.reg x).toNat
    let b := (s.reg y).toNat
    let f := if b ≤ a then 1 else 0
    ∃ t, exec (.subReg x y) s = .next t ∧ (x ≠ VF → (t.reg VF).toNat = f) ∧
      (s.cfg.aluVfOrder = .latched → (t.reg x).toNat = (256 + a - b) % 256) ∧
      (s.cfg.aluVfOrder = .sequential →
        (t.reg x).toNat = (256 + (if x = VF then f else a) - (if y = VF then f else b)) % 256) ∧
      sameRegsBut [x, VF] s t ∧ sameBut [.regs] s t

/-- R160, R150: the reverse subtraction. -/
def Obligations.ReverseSubtractWithBorrow : Prop :=
  ∀ (x y : RegIdx) (s : State),
    let a := (s.reg x).toNat
    let b := (s.reg y).toNat
    let f := if a ≤ b then 1 else 0
    ∃ t, exec (.subn x y) s = .next t ∧ (x ≠ VF → (t.reg VF).toNat = f) ∧
      (s.cfg.aluVfOrder = .latched → (t.reg x).toNat = (256 + b - a) % 256) ∧
      (s.cfg.aluVfOrder = .sequential →
        (t.reg x).toNat = (256 + (if y = VF then f else b) - (if x = VF then f else a)) % 256) ∧
      sameRegsBut [x, VF] s t ∧ sameBut [.regs] s t

/-- R159, R150: bit 0 of the source in VF, the source shifted right by one in V[x]; the source is V[y] when SHIFT_USES_VY. -/
def Obligations.ShiftRight : Prop :=
  ∀ (x y : RegIdx) (s : State),
    let a := if s.cfg.shiftUsesVy = true then (s.reg y).toNat else (s.reg x).toNat
    ∃ t, exec (.shr x y) s = .next t ∧ (x ≠ VF → (t.reg VF).toNat = a % 2) ∧
      (s.cfg.aluVfOrder = .latched → (t.reg x).toNat = a / 2) ∧
      (s.cfg.aluVfOrder = .sequential → (t.reg x).toNat = (if x = VF then a % 2 else a) / 2) ∧
      sameRegsBut [x, VF] s t ∧ sameBut [.regs] s t

/-- R161, R150: bit 7 of the source in VF, the source shifted left by one modulo 256 in V[x]. -/
def Obligations.ShiftLeft : Prop :=
  ∀ (x y : RegIdx) (s : State),
    let a := if s.cfg.shiftUsesVy = true then (s.reg y).toNat else (s.reg x).toNat
    ∃ t, exec (.shl x y) s = .next t ∧ (x ≠ VF → (t.reg VF).toNat = a / 128) ∧
      (s.cfg.aluVfOrder = .latched → (t.reg x).toNat = 2 * a % 256) ∧
      (s.cfg.aluVfOrder = .sequential → (t.reg x).toNat = 2 * (if x = VF then a / 128 else a) % 256) ∧
      sameRegsBut [x, VF] s t ∧ sameBut [.regs] s t

/-- R150: the two ALU_VF_ORDERs agree whenever neither operand is VF. -/
def Obligations.OrdersAgreeAwayFromVf : Prop :=
  ∀ (x y : RegIdx) (s : State), x ≠ VF → y ≠ VF →
    ∀ i ∈ [Instr.subReg x y, .shr x y, .subn x y, .shl x y],
      ∃ t : State, exec i (s.withOrder .sequential) = .next (t.withOrder .sequential) ∧
        exec i (s.withOrder .latched) = .next (t.withOrder .latched)

/-! ### Index register and memory instructions (42_index_memory.md) -/

/-- R180, R181, R182: I set, I added to modulo 2048, I set to a glyph's address; nothing else changes, no flag either. -/
def Obligations.IndexInstructions : Prop :=
  ∀ (nnn : Addr) (x : RegIdx) (s : State),
    (∃ t, exec (.ldI nnn) s = .next t ∧ t.index.toNat = nnn.toNat ∧ sameBut [.index] s t) ∧
    (∃ t, exec (.addI x) s = .next t ∧ t.index.toNat = (s.index.toNat + (s.reg x).toNat) % 2048 ∧ sameBut [.index] s t) ∧
    (∃ t, exec (.ldF x) s = .next t ∧ t.index.toNat = (s.reg x).toNat % 16 * 5 ∧ sameBut [.index] s t)

/-- R183: the three decimal digits at I, I + 1, I + 2, or DataOutOfRange before any write. -/
def Obligations.DecimalDigitsAreStored : Prop :=
  ∀ (x : RegIdx) (s : State), Memory.wf s.mem = true →
    (s.index.toNat + 2 ≤ 4095 →
      ∃ t, exec (.ldB x) s = .next t ∧
        (Memory.read t.mem s.index.toNat).toNat = (s.reg x).toNat / 100 ∧
        (Memory.read t.mem (s.index.toNat + 1)).toNat = (s.reg x).toNat / 10 % 10 ∧
        (Memory.read t.mem (s.index.toNat + 2)).toNat = (s.reg x).toNat % 10 ∧
        sameMemBut s.index.toNat 3 s t ∧ sameBut [.mem] s t) ∧
    (4095 < s.index.toNat + 2 →
      ∃ t, exec (.ldB x) s = .next t ∧
        faulted (recordOf (.ldB x) .dataOutOfRange (some (BitVec.ofNat 16 (max s.index.toNat 4096))) s) s t)

/-- R184: V0 to V[x] at I to I + x, I moved when LDST_INCREMENTS_I = 1, or DataOutOfRange before any write. -/
def Obligations.RegistersAreStored : Prop :=
  ∀ (x : RegIdx) (s : State), Memory.wf s.mem = true →
    (s.index.toNat + x.toNat ≤ 4095 →
      ∃ t, exec (.ldMemVx x) s = .next t ∧
        (∀ r : RegIdx, r.toNat ≤ x.toNat → Memory.read t.mem (s.index.toNat + r.toNat) = s.reg r) ∧
        t.index.toNat = (if s.cfg.ldstIncrementsI = true then s.index.toNat + x.toNat + 1 else s.index.toNat) ∧
        sameMemBut s.index.toNat (x.toNat + 1) s t ∧ sameBut [.mem, .index] s t) ∧
    (4095 < s.index.toNat + x.toNat →
      ∃ t, exec (.ldMemVx x) s = .next t ∧
        faulted (recordOf (.ldMemVx x) .dataOutOfRange (some (BitVec.ofNat 16 (max s.index.toNat 4096))) s) s t)

/-- R185: V0 to V[x] from I to I + x, I moved when LDST_INCREMENTS_I = 1, or DataOutOfRange before any write. -/
def Obligations.RegistersAreLoaded : Prop :=
  ∀ (x : RegIdx) (s : State),
    (s.index.toNat + x.toNat ≤ 4095 →
      ∃ t, exec (.ldVxMem x) s = .next t ∧
        (∀ r : RegIdx, t.reg r =
          if r.toNat ≤ x.toNat then Memory.read s.mem (s.index.toNat + r.toNat) else s.reg r) ∧
        t.index.toNat = (if s.cfg.ldstIncrementsI = true then s.index.toNat + x.toNat + 1 else s.index.toNat) ∧
        sameBut [.regs, .index] s t) ∧
    (4095 < s.index.toNat + x.toNat →
      ∃ t, exec (.ldVxMem x) s = .next t ∧
        faulted (recordOf (.ldVxMem x) .dataOutOfRange (some (BitVec.ofNat 16 (max s.index.toNat 4096))) s) s t)

/-- R185's corner case: Fx65 from the same I gives back what Fx55 stored, whatever the registers hold in between. -/
def Obligations.StoreThenLoadRestoresTheRegisters : Prop :=
  ∀ (x : RegIdx) (s t u : State), Memory.wf s.mem = true → s.index.toNat + x.toNat ≤ 4095 → exec (.ldMemVx x) s = .next t →
    u.mem = t.mem → u.index = s.index →
    ∃ v, exec (.ldVxMem x) u = .next v ∧ ∀ r : RegIdx, r.toNat ≤ x.toNat → v.reg r = s.reg r

/-- R74, R275: two bytes Fx55 stores are the instruction a later fetch at their address reads. -/
def Obligations.StoredBytesAreFetchedNext : Prop :=
  ∀ (x r : RegIdx) (s t u : State), Memory.wf s.mem = true → s.index.toNat + x.toNat ≤ 4095 → r.toNat < x.toNat →
    exec (.ldMemVx x) s = .next t → u.mem = t.mem → u.pc.toNat = s.index.toNat + r.toNat →
    u.decodedAtPc = decodeBytes (s.reg r) (s.reg (r + 1))

/-! ### Display instructions (43_display.md) -/

/-- R200: its word, and every cell 0 and dirty set, whatever the display held. -/
def Obligations.ClearScreen : Prop :=
  (∀ w : Word, w = 0x00E0#16 ↔ decode w = .instr .cls) ∧
  ∀ s : State,
    ∃ t, exec .cls s = .next t ∧ (∀ px py, Display.get t.disp px py = false) ∧
      Display.hasShape s.cfg.displayW s.cfg.displayH t.disp = true ∧ t.dirty = true ∧ sameBut [.disp, .dirty] s t

/-- R201, R202(a), R202(c): a draw complements exactly the cells under a 1-bit of the sprite, clipped at the right and bottom
edges; VF is 1 exactly when some cell went from 1 to 0, else 0; dirty is set. -/
def Obligations.DrawComplementsTheSpritesCells : Prop :=
  ∀ (x y : RegIdx) (n : Nibble) (s : State), 1 ≤ s.cfg.displayW → 1 ≤ s.cfg.displayH →
    Display.hasShape s.cfg.displayW s.cfg.displayH s.disp = true → s.spriteInRange y n →
    ∃ t, exec (.drw x y n) s = .next t ∧
      (∀ px py, s.onDisplay px py →
        Display.get t.disp px py = xor (Display.get s.disp px py) (s.spriteAt x y n px py)) ∧
      (t.reg VF = 0x01#8 ↔
        ∃ px py, s.onDisplay px py ∧ Display.get s.disp px py = true ∧ Display.get t.disp px py = false) ∧
      (t.reg VF = 0x00#8 ∨ t.reg VF = 0x01#8) ∧ t.dirty = true ∧
      Display.hasShape s.cfg.displayW s.cfg.displayH t.disp = true ∧
      sameRegsBut [VF] s t ∧ sameBut [.regs, .disp, .dirty] s t

/-- R201, R243: a drawn row above address 4095 raises DataOutOfRange before any write. -/
def Obligations.DrawOutOfRangeFaults : Prop :=
  ∀ (x y : RegIdx) (n : Nibble) (s : State), ¬ s.spriteInRange y n →
    ∃ t, exec (.drw x y n) s = .next t ∧
      faulted (recordOf (.drw x y n) .dataOutOfRange (some (BitVec.ofNat 16 (max s.index.toNat 4096))) s) s t

/-- R202(b) and R201's corner case on drawing twice, as far as R201's pseudocode, R202(a) and R202(c) allow them: the same sprite
drawn again from the same I, V[x], V[y] and bytes restores every cell; the second draw sets VF = 1 exactly when the first turned a
cell on; and where the first draw met no lit cell (it left VF = 0) that is exactly when it changed a cell, R202(b)'s own words, and
exactly when the sprite has a drawn 1-bit, R201's. Over a lit cell both sentences contradict R202(a) and R202(c), and no model
meets them all: log 23. -/
def Obligations.DrawTwiceRestoresTheDisplay : Prop :=
  ∀ (x y : RegIdx) (n : Nibble) (s t u : State), 1 ≤ s.cfg.displayW → 1 ≤ s.cfg.displayH →
    Display.hasShape s.cfg.displayW s.cfg.displayH s.disp = true → s.spriteInRange y n → exec (.drw x y n) s = .next t →
    u.cfg = s.cfg → u.disp = t.disp → u.mem = s.mem → u.index = s.index → u.reg x = s.reg x → u.reg y = s.reg y →
    ∃ v, exec (.drw x y n) u = .next v ∧
      (∀ px py, s.onDisplay px py → Display.get v.disp px py = Display.get s.disp px py) ∧
      (v.reg VF = 0x01#8 ↔
        ∃ px py, s.onDisplay px py ∧ Display.get s.disp px py = false ∧ Display.get t.disp px py = true) ∧
      (t.reg VF = 0x00#8 →
        (v.reg VF = 0x01#8 ↔ ∃ px py, s.onDisplay px py ∧ Display.get t.disp px py ≠ Display.get s.disp px py) ∧
        (v.reg VF = 0x01#8 ↔ ∃ px py, s.onDisplay px py ∧ s.spriteAt x y n px py = true))

/-! ### Key and timer instructions (44_keys_timers.md), ticks (R251, R252) -/

/-- R221, R222, R220: the skips on a key, or KeyIndexOutOfRange for a key number the snapshot does not have. -/
def Obligations.SkipsOnKeys : Prop :=
  ∀ (x : RegIdx) (s : State),
    ((s.reg x).toNat < s.cfg.keyCount →
      (∃ t, exec (.skp x) s = .next t ∧
        t.pc = (if s.keys.getD (s.reg x).toNat false = true then s.pc + 2 else s.pc) ∧ sameBut [.pc] s t) ∧
      (∃ t, exec (.sknp x) s = .next t ∧
        t.pc = (if s.keys.getD (s.reg x).toNat false = true then s.pc else s.pc + 2) ∧ sameBut [.pc] s t)) ∧
    (s.cfg.keyCount ≤ (s.reg x).toNat →
      (∃ t, exec (.skp x) s = .next t ∧
        faulted (recordOf (.skp x) .keyIndexOutOfRange (some (byteWord (s.reg x))) s) s t) ∧
      (∃ t, exec (.sknp x) s = .next t ∧
        faulted (recordOf (.sknp x) .keyIndexOutOfRange (some (byteWord (s.reg x))) s) s t))

/-- R224: the first pressed key in KEY_SCAN_ORDER, or pc back to the instruction. -/
def Obligations.KeyWait : Prop :=
  ∀ (x : RegIdx) (s : State),
    (∀ before k rest, s.cfg.keyScanOrder = before ++ k :: rest → k < 256 → s.keys.getD k false = true →
      (∀ j ∈ before, s.keys.getD j false = false) →
      ∃ t, exec (.ldVxK x) s = .next t ∧ (t.reg x).toNat = k ∧ sameRegsBut [x] s t ∧ sameBut [.regs] s t) ∧
    ((∀ k ∈ s.cfg.keyScanOrder, s.keys.getD k false = false) →
      ∃ t, exec (.ldVxK x) s = .next t ∧ t.pc = s.pc - 2 ∧ sameBut [.pc] s t)

/-- R258, R277, R224: a step that fetches Fx0A with no key down in its snapshot leaves pc at that word, and of the rest only
clears dirty; the ticks before the step fall. -/
def Obligations.KeyWaitRepeatsTheInstruction : Prop :=
  ∀ (x : RegIdx) (s : State), s.Ready → s.pc.toNat ≤ 4094 → s.decodedAtPc = .instr (.ldVxK x) →
    (∀ k ∈ s.cfg.keyScanOrder, s.nextInput.keys.getD k false = false) →
    ∃ t, step s = .next t ∧ t.pc = s.pc ∧ t.decodedAtPc = .instr (.ldVxK x) ∧ t.dirty = false ∧
      sameBut [.dirty] s.accept t

/-- R223, R225: the moves between a register and the delay timer, and their words. -/
def Obligations.DelayTimerMoves : Prop :=
  rowDecodes 0xF007#16 0xF0FF#16 (fun w => .ldVxDt (fieldX w)) ∧
  rowDecodes 0xF015#16 0xF0FF#16 (fun w => .ldDtVx (fieldX w)) ∧
  ∀ (x : RegIdx) (s : State),
    (∃ t, exec (.ldVxDt x) s = .next t ∧ t.reg x = s.dt ∧ sameRegsBut [x] s t ∧ sameBut [.regs] s t) ∧
    (∃ t, exec (.ldDtVx x) s = .next t ∧ t.dt = s.reg x ∧ sameBut [.dt] s t)

/-- R251, R252: a tick decrements DT and ST, clamped at 0, and touches nothing else, halted or not; the ticks before a step
are that many single ticks. -/
def Obligations.TicksDecrementBothTimers : Prop :=
  ∀ (n : Nat) (s : State),
    ((call .tick s).1.dt.toNat = s.dt.toNat - 1 ∧ (call .tick s).1.st.toNat = s.st.toNat - 1 ∧
      sameBut [.dt, .st] s (call .tick s).1) ∧
    ticks n s = tick^[n] s ∧ (ticks n s).dt.toNat = s.dt.toNat - n ∧ (ticks n s).st.toNat = s.st.toNat - n

/-! ### Loaders and reset (R76, R77, R257, R42) -/

/-- R76, R77, R257: a loader copies its image to its base and changes nothing else, or refuses an image that is too long and
writes nothing. -/
def Obligations.LoadersCopyOrRefuse : Prop :=
  ∀ (image : List Byte) (s : State), Memory.wf s.mem = true →
    (image.length ≤ 512 →
      (loadFont image s).2 = .ok ∧ (∀ (k : Nat) (h : k < image.length), Memory.read (loadFont image s).1.mem k = image[k]) ∧
        sameMemBut 0 image.length s (loadFont image s).1 ∧ sameBut [.mem] s (loadFont image s).1) ∧
    (512 < image.length → loadFont image s = (s, .loadError)) ∧
    (image.length ≤ 3584 →
      (loadProgram image s).2 = .ok ∧
        (∀ (k : Nat) (h : k < image.length), Memory.read (loadProgram image s).1.mem (512 + k) = image[k]) ∧
        sameMemBut 512 image.length s (loadProgram image s).1 ∧ sameBut [.mem] s (loadProgram image s).1) ∧
    (3584 < image.length → loadProgram image s = (s, .loadError))

/-- R78: the two loads write disjoint ranges, so their order does not matter. -/
def Obligations.LoadOrderDoesNotMatter : Prop :=
  ∀ (font program : List Byte) (s : State), Memory.wf s.mem = true → font.length ≤ 512 → program.length ≤ 3584 →
    (loadProgram program (loadFont font s).1).1 = (loadFont font (loadProgram program s).1).1

/-- R42, R270, R271: the state after the reset port, from any state. -/
def Obligations.ResetPortGivesTheResetValues : Prop :=
  ∀ s : State,
    let t := (call .reset s).1
    (∀ r : RegIdx, t.reg r = s.cfg.resetV[r.toNat]'(by omega)) ∧ t.index = s.cfg.resetI ∧ t.dt = s.cfg.resetDt ∧
    t.st = s.cfg.resetSt ∧ t.pc = 0x200#16 ∧ t.stack = [] ∧ t.sp = 0 ∧ (∀ px py, Display.get t.disp px py = false) ∧
    t.dirty = false ∧ t.halt = false ∧ t.fault = none ∧ t.mem = s.cfg.initMem ∧ t.cfg = s.cfg

/-- R42 with the defaults of R9 (D22 to D25): every register, I, DT and ST 0, pc 0x200, every byte of memory 0, stack empty,
display off, dirty 0, HALT 0, FAULT none. -/
def Obligations.DefaultResetState : Prop :=
  (∀ r : RegIdx, State.reset.reg r = 0x00#8) ∧ State.reset.index = 0x0000#16 ∧ State.reset.dt = 0x00#8 ∧
  State.reset.st = 0x00#8 ∧ State.reset.pc = 0x200#16 ∧ State.reset.sp = 0 ∧
  (∀ a, Memory.read State.reset.mem a = 0x00#8) ∧ (∀ px py, Display.get State.reset.disp px py = false) ∧
  State.reset.dirty = false ∧ State.reset.halt = false ∧ State.reset.fault = none

/-! ### Invariants -/

/-- R60, R31, R33, R35, R37: the machine's shape holds at reset, and so do the bounds of R25 and R27. -/
def Obligations.InvariantsHoldAtReset : Prop :=
  State.reset.Inv ∧ State.reset.AddressBounds

/-- R60, R31, R32, R33, R35, R37: every step keeps the machine's shape. -/
def Obligations.EveryStepKeepsTheShape : Prop :=
  ∀ s t : State, s.Inv → step s = .next t → t.Inv

/-- R25, R27: every step keeps pc at most 0x10FE, I at most 0x1000 and every saved pc at most 0x1000. -/
def Obligations.EveryStepKeepsTheAddressBounds : Prop :=
  ∀ s t : State, s.AddressBounds → step s = .next t → t.AddressBounds

/-- R40: every port call keeps the machine's shape: a reset, a load, a tick as well as a step. -/
def Obligations.EveryPortCallKeepsTheShape : Prop :=
  ∀ (c : PortCall) (s : State), s.Inv → (call c s).1.Inv
end

