-- ==== Sys2Proof/Laws/Display.lean ====
section
/-!
SUPPORT. The display: reading a cell after a write, drawing keeps its shape (R33), and what a draw does (R201).
-/

namespace Sys2Proof.Machine

theorem hasShape_iff {w h : Nat} {d : Display} :
    Display.hasShape w h d = true ↔ d.length = h ∧ ∀ row ∈ d, row.length = w := by
  simp [Display.hasShape]

/-- A blank display has its shape (R42, R200). -/
@[simp] theorem hasShape_blankDisplay (w h : Nat) : Display.hasShape w h (blankDisplay w h) = true := by
  simp [hasShape_iff, blankDisplay]

/-- Every cell of a blank display is 0 (R200). -/
@[simp] theorem get_blankDisplay (w h px py : Nat) : Display.get (blankDisplay w h) px py = false := by
  simp only [Display.get, blankDisplay, List.getD_eq_getElem?_getD, List.getElem?_replicate]
  split <;> simp [List.getElem?_replicate]
  split <;> simp

/-- Writing a cell keeps the shape. -/
theorem hasShape_put {w h : Nat} {d : Display} (hd : Display.hasShape w h d = true) (px py : Nat) (c : Bool) :
    Display.hasShape w h (Display.put d px py c) = true := by
  rw [hasShape_iff] at hd ⊢
  refine ⟨by simp [Display.put, hd.1], fun row hr => ?_⟩
  obtain ⟨k, hk, rfl⟩ := List.getElem_of_mem hr
  simp only [Display.put, List.length_modify] at hk
  simp only [Display.put, List.getElem_modify]
  split
  · simp [hd.2 _ (List.getElem_mem hk)]
  · exact hd.2 _ (List.getElem_mem hk)

/-- Reading a cell after a write on the display: the written cell, every other as before. -/
theorem get_put {w h : Nat} {d : Display} (hd : Display.hasShape w h d = true) {px py : Nat} (hx : px < w) (hy : py < h)
    (c : Bool) (qx qy : Nat) :
    Display.get (Display.put d px py c) qx qy = if qx = px ∧ qy = py then c else Display.get d qx qy := by
  rw [hasShape_iff] at hd
  simp only [Display.get, Display.put, List.getD_eq_getElem?_getD, List.getElem?_modify]
  have hrow : (d[py]'(by omega)).length = w := hd.2 _ (List.getElem_mem _)
  by_cases hqy : py = qy
  · subst hqy
    rw [List.getElem?_eq_getElem (show py < d.length by omega)]
    by_cases hqx : px = qx
    · subst hqx; simp [hrow, hx]
    · simp [hqx, eq_comm (a := qx)]
  · simp [hqy, eq_comm (a := qy)]

/-- One turn of the draw's inner loop keeps the shape. -/
theorem hasShape_drawBit {w h : Nat} {c : Canvas} (hd : Display.hasShape w h c.disp = true) (px py : Nat) (bit : Bool) :
    Display.hasShape w h (drawBit w px py bit c).disp = true := by
  unfold drawBit
  split
  · exact hd
  · exact hasShape_put hd _ _ _

theorem hasShape_drawRow {w h : Nat} (x0 py : Nat) (row : Byte) {c : Canvas} (hd : Display.hasShape w h c.disp = true) :
    Display.hasShape w h (drawRow w x0 py row c).disp = true :=
  List.foldlRecOn (motive := fun c => Display.hasShape w h (Canvas.disp c) = true) _ _ hd
    fun _ hc _ _ => hasShape_drawBit hc _ _ _

/-- A draw keeps the shape of the display (R33, R201). -/
theorem hasShape_drawRows {w h : Nat} (x0 y0 : Nat) (m : Memory) (a rows : Nat) {c : Canvas}
    (hd : Display.hasShape w h c.disp = true) : Display.hasShape w h (drawRows w x0 y0 m a rows c).disp = true :=
  List.foldlRecOn (motive := fun c => Display.hasShape w h (Canvas.disp c) = true) _ _ hd
    fun _ hc _ _ => hasShape_drawRow _ _ _ hc

/-- One turn of the inner loop on the display: the cell is complemented by the bit, past the right edge nothing happens. -/
theorem get_drawBit {w h : Nat} {c : Canvas} (hd : Display.hasShape w h c.disp = true) {py : Nat} (hy : py < h) (px : Nat)
    (bit : Bool) (qx qy : Nat) (hq : qx < w) :
    Display.get (drawBit w px py bit c).disp qx qy =
      xor (Display.get c.disp qx qy) (decide (qx = px) && decide (qy = py) && bit) := by
  unfold drawBit
  split
  · simp [show qx ≠ px by omega]
  · rw [get_put hd (by omega) hy]
    split
    · rename_i e; obtain ⟨rfl, rfl⟩ := e; simp
    · rename_i e
      rw [← Bool.decide_and, decide_eq_false e]; simp

/-- What the first `k` columns of a row do (R201): cells complemented, collision accumulated. -/
theorem drawRow_spec {w h : Nat} {c : Canvas} (hd : Display.hasShape w h c.disp = true) {py : Nat} (hy : py < h) (x0 : Nat)
    (row : Byte) (k : Nat) :
    let c' := (List.range k).foldl (fun c b => drawBit w (x0 + b) py (spriteBit row b) c) c
    Display.hasShape w h c'.disp = true ∧
      (∀ qx qy, qx < w → Display.get c'.disp qx qy = xor (Display.get c.disp qx qy)
        (decide (x0 ≤ qx) && decide (qx < x0 + k) && decide (qy = py) && spriteBit row (qx - x0))) ∧
      (c'.hit = true ↔ c.hit = true ∨
        ∃ qx, x0 ≤ qx ∧ qx < x0 + k ∧ qx < w ∧ Display.get c.disp qx py = true ∧ spriteBit row (qx - x0) = true) := by
  induction k with
  | zero =>
    refine ⟨hd, fun qx qy _ => ?_, ?_⟩
    · rw [show (decide (x0 ≤ qx) && decide (qx < x0 + 0)) = false by simp]; simp
    · simp; intros; omega
  | succ k ih =>
    obtain ⟨h1, h2, h3⟩ := ih
    rw [List.range_succ, List.foldl_append, List.foldl_cons, List.foldl_nil]
    refine ⟨hasShape_drawBit h1 _ _ _, fun qx qy hq => ?_, ?_⟩
    · rw [get_drawBit h1 hy _ _ _ _ hq, h2 _ _ hq, Bool.xor_assoc]
      congr 1
      by_cases e : qx = x0 + k
      · subst e; simp
      · have : decide (qx < x0 + (k + 1)) = decide (qx < x0 + k) := by simp; omega
        rw [this]; simp [e]
    · by_cases e : w ≤ x0 + k
      · rw [drawBit, if_pos e, h3]
        refine or_congr Iff.rfl ⟨?_, ?_⟩ <;> rintro ⟨qx, g1, g2, g3⟩ <;> exact ⟨qx, g1, by omega, g3⟩
      · rw [drawBit, if_neg e]
        simp only [Bool.or_eq_true, Bool.and_eq_true, h3, h2 (x0 + k) py (by omega)]
        simp only [Nat.lt_irrefl, decide_false, Bool.and_false, Bool.false_and, Bool.xor_false]
        constructor
        · rintro ((g | ⟨qx, g1, g2, g3⟩) | g)
          · exact .inl g
          · exact .inr ⟨qx, g1, by omega, g3⟩
          · exact .inr ⟨x0 + k, by omega, by omega, by omega, by simpa using g⟩
        · rintro (g | ⟨qx, g1, g2, g3⟩)
          · exact .inl (.inl g)
          · by_cases e' : qx = x0 + k
            · subst e'; exact .inr (by simpa using g3.2)
            · exact .inl (.inr ⟨qx, g1, by omega, g3⟩)

/-- What drawing `k` rows does (R201): the shape stays, each cell under a 1-bit left of the right edge is complemented, and there
is a hit exactly when one of those cells was 1. -/
theorem drawRows_spec {w h : Nat} {c : Canvas} (hd : Display.hasShape w h c.disp = true) (x0 y0 : Nat) (m : Memory) (a k : Nat)
    (hy : y0 + k ≤ h) :
    let c' := drawRows w x0 y0 m a k c
    Display.hasShape w h c'.disp = true ∧
      (∀ qx qy, qx < w → Display.get c'.disp qx qy = xor (Display.get c.disp qx qy)
        (decide (x0 ≤ qx) && decide (qx < x0 + 8) && decide (y0 ≤ qy) && decide (qy < y0 + k) &&
          spriteBit (Memory.read m (a + (qy - y0))) (qx - x0))) ∧
      (c'.hit = true ↔ c.hit = true ∨
        ∃ qx qy, x0 ≤ qx ∧ qx < x0 + 8 ∧ y0 ≤ qy ∧ qy < y0 + k ∧ qx < w ∧ Display.get c.disp qx qy = true ∧
          spriteBit (Memory.read m (a + (qy - y0))) (qx - x0) = true) := by
  unfold drawRows
  induction k with
  | zero =>
    refine ⟨hd, fun qx qy _ => ?_, ?_⟩
    · rw [show (decide (x0 ≤ qx) && decide (qx < x0 + 8) && decide (y0 ≤ qy) && decide (qy < y0 + 0)) = false by simp]; simp
    · simp; intros; omega
  | succ k ih =>
    obtain ⟨h1, h2, h3⟩ := ih (by omega)
    rw [List.range_succ, List.foldl_append, List.foldl_cons, List.foldl_nil]
    obtain ⟨r1, r2, r3⟩ := drawRow_spec h1 (py := y0 + k) (by omega) x0 (Memory.read m (a + k)) 8
    refine ⟨r1, fun qx qy hq => ?_, ?_⟩
    · rw [drawRow, r2 _ _ hq, h2 _ _ hq, Bool.xor_assoc]
      congr 1
      by_cases e : qy = y0 + k
      · subst e; simp
      · have : decide (qy < y0 + (k + 1)) = decide (qy < y0 + k) := by simp; omega
        rw [this]; simp [e]
    · rw [drawRow, r3, h3]
      constructor
      · rintro ((g | ⟨qx, qy, g1, g2, g3, g4, g5⟩) | ⟨qx, g1, g2, g3, g4, g5⟩)
        · exact .inl g
        · exact .inr ⟨qx, qy, g1, g2, g3, by omega, g5⟩
        · rw [h2 _ _ g3] at g4
          simp at g4
          exact .inr ⟨qx, y0 + k, g1, g2, by omega, by omega, g3, g4, by simpa using g5⟩
      · rintro (g | ⟨qx, qy, g1, g2, g3, g4, g5, g6, g7⟩)
        · exact .inl (.inl g)
        · by_cases e : qy = y0 + k
          · subst e
            refine .inr ⟨qx, g1, g2, g5, ?_, by simpa using g7⟩
            rw [h2 _ _ g5]; simpa using g6
          · exact .inl (.inr ⟨qx, qy, g1, g2, g3, by omega, g5, g6, g7⟩)
/-- No row is drawn below the bottom edge (R201). -/
theorem startY_add_rowsDrawn_le (s : State) (y : RegIdx) (n : Nibble) (h : 1 ≤ s.cfg.displayH) :
    s.startY y + s.rowsDrawn y n ≤ s.cfg.displayH := by
  have : s.startY y < s.cfg.displayH := Nat.mod_lt _ h
  unfold State.rowsDrawn
  omega

/-- The start column lies on the display (R201). -/
theorem startX_lt (s : State) (x : RegIdx) (h : 1 ≤ s.cfg.displayW) : s.startX x < s.cfg.displayW := Nat.mod_lt _ h

end Sys2Proof.Machine
end

