-- ==== Sys2Proof/Laws/Encoding.lean ====
section
/-!
SUPPORT. The fields of a packed word (R92), and a word from its bytes (R64, R91).
-/

namespace Sys2Proof

@[simp] theorem fieldOp_packNnn (op : Nibble) (nnn : Addr) : fieldOp (packNnn op nnn) = op := by
  simp only [fieldOp, packNnn]; ext i hi; simp; grind

@[simp] theorem fieldNnn_packNnn (op : Nibble) (nnn : Addr) : fieldNnn (packNnn op nnn) = nnn := by
  simp only [fieldNnn, packNnn]; ext i hi; simp; grind

@[simp] theorem fieldX_packNnn (op : Nibble) (nnn : Addr) : fieldX (packNnn op nnn) = nnn.extractLsb' 8 4 := by
  simp only [fieldX, packNnn]; ext i hi; simp; grind

@[simp] theorem fieldOp_packXnn (op : Nibble) (x : RegIdx) (nn : Byte) : fieldOp (packXnn op x nn) = op := by
  simp only [fieldOp, packXnn]; ext i hi; simp; grind

@[simp] theorem fieldX_packXnn (op : Nibble) (x : RegIdx) (nn : Byte) : fieldX (packXnn op x nn) = x := by
  simp only [fieldX, packXnn]; ext i hi; simp; grind

@[simp] theorem fieldNn_packXnn (op : Nibble) (x : RegIdx) (nn : Byte) : fieldNn (packXnn op x nn) = nn := by
  simp only [fieldNn, packXnn]; ext i hi; simp; grind

@[simp] theorem fieldOp_packXyn (op : Nibble) (x y : RegIdx) (n : Nibble) : fieldOp (packXyn op x y n) = op := by
  simp only [fieldOp, packXyn]; ext i hi; simp; grind

@[simp] theorem fieldX_packXyn (op : Nibble) (x y : RegIdx) (n : Nibble) : fieldX (packXyn op x y n) = x := by
  simp only [fieldX, packXyn]; ext i hi; simp; grind

@[simp] theorem fieldY_packXyn (op : Nibble) (x y : RegIdx) (n : Nibble) : fieldY (packXyn op x y n) = y := by
  simp only [fieldY, packXyn]; ext i hi; simp; grind

@[simp] theorem fieldN_packXyn (op : Nibble) (x y : RegIdx) (n : Nibble) : fieldN (packXyn op x y n) = n := by
  simp only [fieldN, packXyn]; ext i hi; simp; grind

/-- A word is its op and nnn fields. -/
theorem packNnn_fields (w : Word) : packNnn (fieldOp w) (fieldNnn w) = w := by
  simp only [fieldOp, fieldNnn, packNnn]; ext i hi; simp; grind

/-- A word is its op, x and nn fields. -/
theorem packXnn_fields (w : Word) : packXnn (fieldOp w) (fieldX w) (fieldNn w) = w := by
  simp only [fieldOp, fieldX, fieldNn, packXnn]; ext i hi; simp; grind

/-- A word is its op, x, y and n fields. -/
theorem packXyn_fields (w : Word) : packXyn (fieldOp w) (fieldX w) (fieldY w) (fieldN w) = w := by
  simp only [fieldOp, fieldX, fieldY, fieldN, packXyn]; ext i hi; simp; grind

/-- Assembling a word's bytes in memory order gives the word back (R64, R91). -/
theorem assemble_wordBytes (w : Word) : assemble (w.extractLsb' 8 8) (w.extractLsb' 0 8) = w := by
  simp only [assemble]; ext i hi; simp; grind

end Sys2Proof
end

