-- ==== Sys2Proof/Laws/Memory.lean ====
section
/-!
SUPPORT. Memory: every operation keeps the canonical form, and what a read gives after a write (R61, R62).
-/

namespace Sys2Proof.Machine

/-! ### The canonical form is kept -/

theorem Memory.wfFrom_mono {lo lo' : Nat} (h : lo' ≤ lo) : ∀ {m : Memory}, Memory.wfFrom lo m = true → Memory.wfFrom lo' m = true
  | [], _ => rfl
  | (k, b) :: m, w => by
    simp only [Memory.wfFrom, Bool.and_eq_true, decide_eq_true_eq] at w ⊢
    exact ⟨⟨⟨by omega, w.1.1.2⟩, w.1.2⟩, w.2⟩

theorem Memory.insert_wfFrom {a : Nat} (b : Byte) (ha : a < memSize) :
    ∀ {lo : Nat} {m : Memory}, lo ≤ a → Memory.wfFrom lo m = true → Memory.wfFrom lo (Memory.insert m a b) = true
  | lo, [], hlo, _ => by
    unfold Memory.insert
    split
    · rfl
    · simp_all [Memory.wfFrom]
  | lo, (k, c) :: m, hlo, w => by
    simp only [Memory.wfFrom, Bool.and_eq_true, decide_eq_true_eq] at w
    obtain ⟨⟨⟨h1, h2⟩, h3⟩, h4⟩ := w
    unfold Memory.insert
    split
    · split
      · simp_all [Memory.wfFrom]
      · simp_all [Memory.wfFrom]
    · split
      · split
        · exact Memory.wfFrom_mono (by omega) h4
        · simp_all [Memory.wfFrom]
      · have := Memory.insert_wfFrom b ha (lo := k + 1) (m := m) (by omega) h4
        simp_all [Memory.wfFrom]

/-- A write keeps the canonical form (R62). -/
theorem Memory.write_wf {m : Memory} (a : Nat) (b : Byte) (h : Memory.wf m = true) : Memory.wf (Memory.write m a b) = true := by
  unfold Memory.write
  split
  · exact h
  · exact Memory.insert_wfFrom b (by omega) (Nat.zero_le a) h

/-- Writing a run of bytes keeps the canonical form (R76, R77, R183, R184). -/
theorem Memory.writeBytes_wf : ∀ (bs : List Byte) {m : Memory} (a : Nat), Memory.wf m = true →
    Memory.wf (Memory.writeBytes m a bs) = true
  | [], _, _, h => h
  | b :: bs, _, a, h => Memory.writeBytes_wf bs (a + 1) (Memory.write_wf a b h)

/-! ### Reads -/

/-- Below the first listed address nothing is listed. -/
theorem Memory.read_below : ∀ {m : Memory} {lo a : Nat}, Memory.wfFrom lo m = true → a < lo → Memory.read m a = unlistedByte
  | [], _, _, _, _ => rfl
  | (k, b) :: m, lo, a, w, h => by
    simp only [Memory.wfFrom, Bool.and_eq_true, decide_eq_true_eq] at w
    rw [Memory.read, if_neg (by omega)]
    exact Memory.read_below w.2 (by omega)

theorem Memory.read_insert {a : Nat} (b : Byte) (c : Nat) : ∀ {lo : Nat} {m : Memory}, Memory.wfFrom lo m = true →
    Memory.read (Memory.insert m a b) c = if c = a then b else Memory.read m c
  | lo, [], _ => by
    by_cases hb : b = unlistedByte <;> by_cases hc : c = a <;> simp_all [Memory.insert, Memory.read, eq_comm (a := a)]
  | lo, (k, d) :: m, w => by
    simp only [Memory.wfFrom, Bool.and_eq_true, decide_eq_true_eq] at w
    have below : ∀ {e : Nat}, e ≤ k → Memory.read m e = unlistedByte := fun h => Memory.read_below w.2 (by omega)
    rcases Nat.lt_trichotomy a k with h | rfl | h
    · have hb := below (e := a) (by omega)
      by_cases hu : b = unlistedByte <;> by_cases hc : c = a <;> simp_all [Memory.insert, Memory.read, eq_comm (a := a)]
      omega
    · have hb := below (e := a) (by omega)
      by_cases hu : b = unlistedByte <;> by_cases hc : c = a <;> simp_all [Memory.insert, Memory.read, eq_comm (a := a)]
    · rw [Memory.insert, if_neg (by omega), if_neg (by omega), Memory.read, Memory.read, Memory.read_insert b c w.2]
      by_cases hk : k = c
      · rw [if_pos hk, if_neg (by omega), if_pos hk]
      · rw [if_neg hk, if_neg hk]

/-- Reading after a write (R61, R62): the byte written at its address, every other address as before. -/
theorem Memory.read_write {m : Memory} (h : Memory.wf m = true) {a : Nat} (ha : a < memSize) (b : Byte) (c : Nat) :
    Memory.read (Memory.write m a b) c = if c = a then b else Memory.read m c := by
  rw [Memory.write, if_neg (by omega), Memory.read_insert b c h]

/-- A write leaves every other address alone, whatever is written where. -/
theorem Memory.read_write_of_ne {m : Memory} (h : Memory.wf m = true) {a c : Nat} (b : Byte) (hc : c ≠ a) :
    Memory.read (Memory.write m a b) c = Memory.read m c := by
  unfold Memory.write
  split
  · rfl
  · rw [Memory.read_insert b c h, if_neg hc]

/-- Reading after a run of bytes has been written below 4096: the run's bytes at their addresses, every other as before. -/
theorem Memory.read_writeBytes : ∀ (bs : List Byte) {m : Memory} {a : Nat}, Memory.wf m = true → a + bs.length ≤ memSize →
    ∀ c, Memory.read (Memory.writeBytes m a bs) c = if a ≤ c ∧ c < a + bs.length then bs.getD (c - a) unlistedByte else Memory.read m c
  | [], m, a, _, _, c => by
    have : ¬ (a ≤ c ∧ c < a) := by omega
    simp [Memory.writeBytes, this]
  | b :: bs, m, a, h, hn, c => by
    simp only [List.length_cons] at hn ⊢
    rw [Memory.writeBytes, Memory.read_writeBytes bs (Memory.write_wf a b h) (by omega), Memory.read_write h (by omega)]
    rcases Nat.lt_trichotomy c a with hc | hc | hc
    · rw [if_neg (by omega), if_neg (by omega), if_neg (by omega)]
    · subst hc; simp
    · obtain ⟨d, rfl⟩ : ∃ d, c = a + 1 + d := ⟨c - (a + 1), by omega⟩
      have e : a + 1 + d - a = d + 1 := by omega
      by_cases hd : d < bs.length
      · rw [if_pos (by omega), if_pos (by omega), e]; simp
      · rw [if_neg (by omega), if_neg (by omega), if_neg (by omega)]

/-- A run of bytes leaves every address outside it alone. -/
theorem Memory.read_writeBytes_outside {bs : List Byte} {m : Memory} {a : Nat} (h : Memory.wf m = true)
    (hn : a + bs.length ≤ memSize) {c : Nat} (hc : c < a ∨ a + bs.length ≤ c) :
    Memory.read (Memory.writeBytes m a bs) c = Memory.read m c := by
  rw [Memory.read_writeBytes bs h hn, if_neg (by omega)]

/-- The canonical form has one memory for each reading: equal reads are equal data. -/
theorem Memory.eq_of_read : ∀ {m m' : Memory} {lo lo' : Nat}, Memory.wfFrom lo m = true → Memory.wfFrom lo' m' = true →
    (∀ a, Memory.read m a = Memory.read m' a) → m = m'
  | [], [], _, _, _, _, _ => rfl
  | [], (k, b) :: m', _, _, _, w', h => by
    simp only [Memory.wfFrom, Bool.and_eq_true, decide_eq_true_eq] at w'
    have := h k
    simp_all [Memory.read]
  | (k, b) :: m, [], _, _, w, _, h => by
    simp only [Memory.wfFrom, Bool.and_eq_true, decide_eq_true_eq] at w
    have := h k
    simp_all [Memory.read]
  | (k, b) :: m, (k', b') :: m', _, _, w, w', h => by
    simp only [Memory.wfFrom, Bool.and_eq_true, decide_eq_true_eq, bne_iff_ne] at w w'
    have hk : k = k' := by
      rcases Nat.lt_trichotomy k k' with hk | hk | hk
      · have := h k
        rw [Memory.read, Memory.read, if_pos rfl, if_neg (by omega), Memory.read_below w'.2 (by omega)] at this
        exact absurd this w.1.2
      · exact hk
      · have := h k'
        rw [Memory.read, Memory.read, if_pos rfl, if_neg (by omega), Memory.read_below w.2 (by omega)] at this
        exact absurd this.symm w'.1.2
    subst hk
    have hb : b = b' := by simpa [Memory.read] using h k
    subst hb
    congr 1
    refine Memory.eq_of_read w.2 w'.2 fun a => ?_
    by_cases ha : a = k
    · subst ha
      rw [Memory.read_below w.2 (by omega), Memory.read_below w'.2 (by omega)]
    · have := h a
      rwa [Memory.read, Memory.read, if_neg (Ne.symm ha), if_neg (Ne.symm ha)] at this

/-! ### The range check (R61, R183 to R186, R201) -/

/-- No address of the access lies above 4095. -/
theorem firstOutside_eq_none {base : Word} {count : Nat} :
    firstOutside base count = none ↔ count = 0 ∨ base.toNat + (count - 1) ≤ 4095 := by
  unfold firstOutside
  split <;> simp_all

/-- The address a DataOutOfRange record names. -/
theorem firstOutside_eq_some {base : Word} {count : Nat} (h : 0 < count) (h' : 4095 < base.toNat + (count - 1)) :
    firstOutside base count = some (BitVec.ofNat 16 (max base.toNat 4096)) := by
  unfold firstOutside
  rw [if_neg (by omega)]

end Sys2Proof.Machine
end

