-- ==== Sys2Proof/Laws/State.lean ====
section
/-!
SUPPORT. What each update of the state leaves in each field, so that no proof unfolds an update.
-/

namespace Sys2Proof.Machine

@[simp] theorem State.setReg_cfg (s : State) (x : RegIdx) (b : Byte) : (s.setReg x b).cfg = s.cfg := rfl
@[simp] theorem State.setReg_index (s : State) (x : RegIdx) (b : Byte) : (s.setReg x b).index = s.index := rfl
@[simp] theorem State.setReg_pc (s : State) (x : RegIdx) (b : Byte) : (s.setReg x b).pc = s.pc := rfl
@[simp] theorem State.setReg_dt (s : State) (x : RegIdx) (b : Byte) : (s.setReg x b).dt = s.dt := rfl
@[simp] theorem State.setReg_st (s : State) (x : RegIdx) (b : Byte) : (s.setReg x b).st = s.st := rfl
@[simp] theorem State.setReg_stack (s : State) (x : RegIdx) (b : Byte) : (s.setReg x b).stack = s.stack := rfl
@[simp] theorem State.setReg_disp (s : State) (x : RegIdx) (b : Byte) : (s.setReg x b).disp = s.disp := rfl
@[simp] theorem State.setReg_dirty (s : State) (x : RegIdx) (b : Byte) : (s.setReg x b).dirty = s.dirty := rfl
@[simp] theorem State.setReg_halt (s : State) (x : RegIdx) (b : Byte) : (s.setReg x b).halt = s.halt := rfl
@[simp] theorem State.setReg_fault (s : State) (x : RegIdx) (b : Byte) : (s.setReg x b).fault = s.fault := rfl
@[simp] theorem State.setReg_mem (s : State) (x : RegIdx) (b : Byte) : (s.setReg x b).mem = s.mem := rfl
@[simp] theorem State.setReg_keys (s : State) (x : RegIdx) (b : Byte) : (s.setReg x b).keys = s.keys := rfl
@[simp] theorem State.setReg_rnd (s : State) (x : RegIdx) (b : Byte) : (s.setReg x b).rnd = s.rnd := rfl
@[simp] theorem State.setReg_reply (s : State) (x : RegIdx) (b : Byte) : (s.setReg x b).reply = s.reply := rfl
@[simp] theorem State.setReg_inputs (s : State) (x : RegIdx) (b : Byte) : (s.setReg x b).inputs = s.inputs := rfl
@[simp] theorem State.setReg_clock (s : State) (x : RegIdx) (b : Byte) : (s.setReg x b).clock = s.clock := rfl

@[simp] theorem State.jump_cfg (s : State) (a : Word) : (s.jump a).cfg = s.cfg := rfl
@[simp] theorem State.jump_v (s : State) (a : Word) : (s.jump a).v = s.v := rfl
@[simp] theorem State.jump_index (s : State) (a : Word) : (s.jump a).index = s.index := rfl
@[simp] theorem State.jump_dt (s : State) (a : Word) : (s.jump a).dt = s.dt := rfl
@[simp] theorem State.jump_st (s : State) (a : Word) : (s.jump a).st = s.st := rfl
@[simp] theorem State.jump_stack (s : State) (a : Word) : (s.jump a).stack = s.stack := rfl
@[simp] theorem State.jump_disp (s : State) (a : Word) : (s.jump a).disp = s.disp := rfl
@[simp] theorem State.jump_dirty (s : State) (a : Word) : (s.jump a).dirty = s.dirty := rfl
@[simp] theorem State.jump_halt (s : State) (a : Word) : (s.jump a).halt = s.halt := rfl
@[simp] theorem State.jump_fault (s : State) (a : Word) : (s.jump a).fault = s.fault := rfl
@[simp] theorem State.jump_mem (s : State) (a : Word) : (s.jump a).mem = s.mem := rfl
@[simp] theorem State.jump_keys (s : State) (a : Word) : (s.jump a).keys = s.keys := rfl
@[simp] theorem State.jump_rnd (s : State) (a : Word) : (s.jump a).rnd = s.rnd := rfl
@[simp] theorem State.jump_reply (s : State) (a : Word) : (s.jump a).reply = s.reply := rfl
@[simp] theorem State.jump_inputs (s : State) (a : Word) : (s.jump a).inputs = s.inputs := rfl
@[simp] theorem State.jump_clock (s : State) (a : Word) : (s.jump a).clock = s.clock := rfl
@[simp] theorem State.jump_pc (s : State) (a : Word) : (s.jump a).pc = a := rfl

@[simp] theorem State.skipIf_pc (s : State) (c : Bool) : (s.skipIf c).pc = if c then s.pc + 2 else s.pc := rfl
@[simp] theorem State.skipIf_cfg (s : State) (c : Bool) : (s.skipIf c).cfg = s.cfg := rfl
@[simp] theorem State.skipIf_v (s : State) (c : Bool) : (s.skipIf c).v = s.v := rfl
@[simp] theorem State.skipIf_index (s : State) (c : Bool) : (s.skipIf c).index = s.index := rfl
@[simp] theorem State.skipIf_dt (s : State) (c : Bool) : (s.skipIf c).dt = s.dt := rfl
@[simp] theorem State.skipIf_st (s : State) (c : Bool) : (s.skipIf c).st = s.st := rfl
@[simp] theorem State.skipIf_stack (s : State) (c : Bool) : (s.skipIf c).stack = s.stack := rfl
@[simp] theorem State.skipIf_disp (s : State) (c : Bool) : (s.skipIf c).disp = s.disp := rfl
@[simp] theorem State.skipIf_dirty (s : State) (c : Bool) : (s.skipIf c).dirty = s.dirty := rfl
@[simp] theorem State.skipIf_halt (s : State) (c : Bool) : (s.skipIf c).halt = s.halt := rfl
@[simp] theorem State.skipIf_fault (s : State) (c : Bool) : (s.skipIf c).fault = s.fault := rfl
@[simp] theorem State.skipIf_mem (s : State) (c : Bool) : (s.skipIf c).mem = s.mem := rfl
@[simp] theorem State.skipIf_keys (s : State) (c : Bool) : (s.skipIf c).keys = s.keys := rfl
@[simp] theorem State.skipIf_rnd (s : State) (c : Bool) : (s.skipIf c).rnd = s.rnd := rfl
@[simp] theorem State.skipIf_reply (s : State) (c : Bool) : (s.skipIf c).reply = s.reply := rfl
@[simp] theorem State.skipIf_inputs (s : State) (c : Bool) : (s.skipIf c).inputs = s.inputs := rfl
@[simp] theorem State.skipIf_clock (s : State) (c : Bool) : (s.skipIf c).clock = s.clock := rfl

@[simp] theorem State.autoIncrement_cfg (s : State) (x : RegIdx) : (s.autoIncrement x).cfg = s.cfg := rfl
@[simp] theorem State.autoIncrement_v (s : State) (x : RegIdx) : (s.autoIncrement x).v = s.v := rfl
@[simp] theorem State.autoIncrement_pc (s : State) (x : RegIdx) : (s.autoIncrement x).pc = s.pc := rfl
@[simp] theorem State.autoIncrement_dt (s : State) (x : RegIdx) : (s.autoIncrement x).dt = s.dt := rfl
@[simp] theorem State.autoIncrement_st (s : State) (x : RegIdx) : (s.autoIncrement x).st = s.st := rfl
@[simp] theorem State.autoIncrement_stack (s : State) (x : RegIdx) : (s.autoIncrement x).stack = s.stack := rfl
@[simp] theorem State.autoIncrement_disp (s : State) (x : RegIdx) : (s.autoIncrement x).disp = s.disp := rfl
@[simp] theorem State.autoIncrement_dirty (s : State) (x : RegIdx) : (s.autoIncrement x).dirty = s.dirty := rfl
@[simp] theorem State.autoIncrement_halt (s : State) (x : RegIdx) : (s.autoIncrement x).halt = s.halt := rfl
@[simp] theorem State.autoIncrement_fault (s : State) (x : RegIdx) : (s.autoIncrement x).fault = s.fault := rfl
@[simp] theorem State.autoIncrement_mem (s : State) (x : RegIdx) : (s.autoIncrement x).mem = s.mem := rfl
@[simp] theorem State.autoIncrement_keys (s : State) (x : RegIdx) : (s.autoIncrement x).keys = s.keys := rfl
@[simp] theorem State.autoIncrement_rnd (s : State) (x : RegIdx) : (s.autoIncrement x).rnd = s.rnd := rfl
@[simp] theorem State.autoIncrement_reply (s : State) (x : RegIdx) : (s.autoIncrement x).reply = s.reply := rfl
@[simp] theorem State.autoIncrement_inputs (s : State) (x : RegIdx) : (s.autoIncrement x).inputs = s.inputs := rfl
@[simp] theorem State.autoIncrement_clock (s : State) (x : RegIdx) : (s.autoIncrement x).clock = s.clock := rfl

@[simp] theorem State.loadRegs_cfg (s : State) (x : RegIdx) : (s.loadRegs x).cfg = s.cfg := by simp only [State.loadRegs]
@[simp] theorem State.loadRegs_index (s : State) (x : RegIdx) : (s.loadRegs x).index = s.index := by simp only [State.loadRegs]
@[simp] theorem State.loadRegs_pc (s : State) (x : RegIdx) : (s.loadRegs x).pc = s.pc := by simp only [State.loadRegs]
@[simp] theorem State.loadRegs_dt (s : State) (x : RegIdx) : (s.loadRegs x).dt = s.dt := by simp only [State.loadRegs]
@[simp] theorem State.loadRegs_st (s : State) (x : RegIdx) : (s.loadRegs x).st = s.st := by simp only [State.loadRegs]
@[simp] theorem State.loadRegs_stack (s : State) (x : RegIdx) : (s.loadRegs x).stack = s.stack := by simp only [State.loadRegs]
@[simp] theorem State.loadRegs_disp (s : State) (x : RegIdx) : (s.loadRegs x).disp = s.disp := by simp only [State.loadRegs]
@[simp] theorem State.loadRegs_dirty (s : State) (x : RegIdx) : (s.loadRegs x).dirty = s.dirty := by simp only [State.loadRegs]
@[simp] theorem State.loadRegs_halt (s : State) (x : RegIdx) : (s.loadRegs x).halt = s.halt := by simp only [State.loadRegs]
@[simp] theorem State.loadRegs_fault (s : State) (x : RegIdx) : (s.loadRegs x).fault = s.fault := by simp only [State.loadRegs]
@[simp] theorem State.loadRegs_mem (s : State) (x : RegIdx) : (s.loadRegs x).mem = s.mem := by simp only [State.loadRegs]
@[simp] theorem State.loadRegs_keys (s : State) (x : RegIdx) : (s.loadRegs x).keys = s.keys := by simp only [State.loadRegs]
@[simp] theorem State.loadRegs_rnd (s : State) (x : RegIdx) : (s.loadRegs x).rnd = s.rnd := by simp only [State.loadRegs]
@[simp] theorem State.loadRegs_reply (s : State) (x : RegIdx) : (s.loadRegs x).reply = s.reply := by simp only [State.loadRegs]
@[simp] theorem State.loadRegs_inputs (s : State) (x : RegIdx) : (s.loadRegs x).inputs = s.inputs := by simp only [State.loadRegs]
@[simp] theorem State.loadRegs_clock (s : State) (x : RegIdx) : (s.loadRegs x).clock = s.clock := by simp only [State.loadRegs]

@[simp] theorem State.shiftSource_cfg (s : State) (x y : RegIdx) : (s.shiftSource x y).cfg = s.cfg := rfl
@[simp] theorem State.shiftSource_index (s : State) (x y : RegIdx) : (s.shiftSource x y).index = s.index := rfl
@[simp] theorem State.shiftSource_pc (s : State) (x y : RegIdx) : (s.shiftSource x y).pc = s.pc := rfl
@[simp] theorem State.shiftSource_dt (s : State) (x y : RegIdx) : (s.shiftSource x y).dt = s.dt := rfl
@[simp] theorem State.shiftSource_st (s : State) (x y : RegIdx) : (s.shiftSource x y).st = s.st := rfl
@[simp] theorem State.shiftSource_stack (s : State) (x y : RegIdx) : (s.shiftSource x y).stack = s.stack := rfl
@[simp] theorem State.shiftSource_disp (s : State) (x y : RegIdx) : (s.shiftSource x y).disp = s.disp := rfl
@[simp] theorem State.shiftSource_dirty (s : State) (x y : RegIdx) : (s.shiftSource x y).dirty = s.dirty := rfl
@[simp] theorem State.shiftSource_halt (s : State) (x y : RegIdx) : (s.shiftSource x y).halt = s.halt := rfl
@[simp] theorem State.shiftSource_fault (s : State) (x y : RegIdx) : (s.shiftSource x y).fault = s.fault := rfl
@[simp] theorem State.shiftSource_mem (s : State) (x y : RegIdx) : (s.shiftSource x y).mem = s.mem := rfl
@[simp] theorem State.shiftSource_keys (s : State) (x y : RegIdx) : (s.shiftSource x y).keys = s.keys := rfl
@[simp] theorem State.shiftSource_rnd (s : State) (x y : RegIdx) : (s.shiftSource x y).rnd = s.rnd := rfl
@[simp] theorem State.shiftSource_reply (s : State) (x y : RegIdx) : (s.shiftSource x y).reply = s.reply := rfl
@[simp] theorem State.shiftSource_inputs (s : State) (x y : RegIdx) : (s.shiftSource x y).inputs = s.inputs := rfl
@[simp] theorem State.shiftSource_clock (s : State) (x y : RegIdx) : (s.shiftSource x y).clock = s.clock := rfl

@[simp] theorem State.flagThenResult_cfg (s : State) (x : RegIdx) (f : Byte) (g : State → Byte) : (s.flagThenResult x f g).cfg = s.cfg := rfl
@[simp] theorem State.flagThenResult_index (s : State) (x : RegIdx) (f : Byte) (g : State → Byte) : (s.flagThenResult x f g).index = s.index := rfl
@[simp] theorem State.flagThenResult_pc (s : State) (x : RegIdx) (f : Byte) (g : State → Byte) : (s.flagThenResult x f g).pc = s.pc := rfl
@[simp] theorem State.flagThenResult_dt (s : State) (x : RegIdx) (f : Byte) (g : State → Byte) : (s.flagThenResult x f g).dt = s.dt := rfl
@[simp] theorem State.flagThenResult_st (s : State) (x : RegIdx) (f : Byte) (g : State → Byte) : (s.flagThenResult x f g).st = s.st := rfl
@[simp] theorem State.flagThenResult_stack (s : State) (x : RegIdx) (f : Byte) (g : State → Byte) : (s.flagThenResult x f g).stack = s.stack := rfl
@[simp] theorem State.flagThenResult_disp (s : State) (x : RegIdx) (f : Byte) (g : State → Byte) : (s.flagThenResult x f g).disp = s.disp := rfl
@[simp] theorem State.flagThenResult_dirty (s : State) (x : RegIdx) (f : Byte) (g : State → Byte) : (s.flagThenResult x f g).dirty = s.dirty := rfl
@[simp] theorem State.flagThenResult_halt (s : State) (x : RegIdx) (f : Byte) (g : State → Byte) : (s.flagThenResult x f g).halt = s.halt := rfl
@[simp] theorem State.flagThenResult_fault (s : State) (x : RegIdx) (f : Byte) (g : State → Byte) : (s.flagThenResult x f g).fault = s.fault := rfl
@[simp] theorem State.flagThenResult_mem (s : State) (x : RegIdx) (f : Byte) (g : State → Byte) : (s.flagThenResult x f g).mem = s.mem := rfl
@[simp] theorem State.flagThenResult_keys (s : State) (x : RegIdx) (f : Byte) (g : State → Byte) : (s.flagThenResult x f g).keys = s.keys := rfl
@[simp] theorem State.flagThenResult_rnd (s : State) (x : RegIdx) (f : Byte) (g : State → Byte) : (s.flagThenResult x f g).rnd = s.rnd := rfl
@[simp] theorem State.flagThenResult_reply (s : State) (x : RegIdx) (f : Byte) (g : State → Byte) : (s.flagThenResult x f g).reply = s.reply := rfl
@[simp] theorem State.flagThenResult_inputs (s : State) (x : RegIdx) (f : Byte) (g : State → Byte) : (s.flagThenResult x f g).inputs = s.inputs := rfl
@[simp] theorem State.flagThenResult_clock (s : State) (x : RegIdx) (f : Byte) (g : State → Byte) : (s.flagThenResult x f g).clock = s.clock := rfl

@[simp] theorem State.dropInput_cfg (s : State) : (s.dropInput).cfg = s.cfg := by unfold State.dropInput; split <;> rfl
@[simp] theorem State.dropInput_v (s : State) : (s.dropInput).v = s.v := by unfold State.dropInput; split <;> rfl
@[simp] theorem State.dropInput_index (s : State) : (s.dropInput).index = s.index := by unfold State.dropInput; split <;> rfl
@[simp] theorem State.dropInput_pc (s : State) : (s.dropInput).pc = s.pc := by unfold State.dropInput; split <;> rfl
@[simp] theorem State.dropInput_dt (s : State) : (s.dropInput).dt = s.dt := by unfold State.dropInput; split <;> rfl
@[simp] theorem State.dropInput_st (s : State) : (s.dropInput).st = s.st := by unfold State.dropInput; split <;> rfl
@[simp] theorem State.dropInput_stack (s : State) : (s.dropInput).stack = s.stack := by unfold State.dropInput; split <;> rfl
@[simp] theorem State.dropInput_disp (s : State) : (s.dropInput).disp = s.disp := by unfold State.dropInput; split <;> rfl
@[simp] theorem State.dropInput_dirty (s : State) : (s.dropInput).dirty = s.dirty := by unfold State.dropInput; split <;> rfl
@[simp] theorem State.dropInput_halt (s : State) : (s.dropInput).halt = s.halt := by unfold State.dropInput; split <;> rfl
@[simp] theorem State.dropInput_fault (s : State) : (s.dropInput).fault = s.fault := by unfold State.dropInput; split <;> rfl
@[simp] theorem State.dropInput_mem (s : State) : (s.dropInput).mem = s.mem := by unfold State.dropInput; split <;> rfl
@[simp] theorem State.dropInput_keys (s : State) : (s.dropInput).keys = s.keys := by unfold State.dropInput; split <;> rfl
@[simp] theorem State.dropInput_rnd (s : State) : (s.dropInput).rnd = s.rnd := by unfold State.dropInput; split <;> rfl
@[simp] theorem State.dropInput_reply (s : State) : (s.dropInput).reply = s.reply := by unfold State.dropInput; split <;> rfl

@[simp] theorem State.accept_cfg (s : State) : (s.accept).cfg = s.cfg := State.dropInput_cfg s
@[simp] theorem State.accept_v (s : State) : (s.accept).v = s.v := State.dropInput_v s
@[simp] theorem State.accept_index (s : State) : (s.accept).index = s.index := State.dropInput_index s
@[simp] theorem State.accept_pc (s : State) : (s.accept).pc = s.pc := State.dropInput_pc s
@[simp] theorem State.accept_stack (s : State) : (s.accept).stack = s.stack := State.dropInput_stack s
@[simp] theorem State.accept_disp (s : State) : (s.accept).disp = s.disp := State.dropInput_disp s
@[simp] theorem State.accept_dirty (s : State) : (s.accept).dirty = s.dirty := State.dropInput_dirty s
@[simp] theorem State.accept_halt (s : State) : (s.accept).halt = s.halt := State.dropInput_halt s
@[simp] theorem State.accept_fault (s : State) : (s.accept).fault = s.fault := State.dropInput_fault s
@[simp] theorem State.accept_mem (s : State) : (s.accept).mem = s.mem := State.dropInput_mem s
@[simp] theorem State.accept_inputs (s : State) : (s.accept).inputs = s.dropInput.inputs := rfl
@[simp] theorem State.accept_clock (s : State) : (s.accept).clock = s.dropInput.clock := rfl
@[simp] theorem State.accept_keys (s : State) : (s.accept).keys = s.nextInput.keys := rfl
@[simp] theorem State.accept_rnd (s : State) : (s.accept).rnd = s.nextInput.rnd := rfl
@[simp] theorem State.accept_reply (s : State) : (s.accept).reply = .ok := rfl

@[simp] theorem tick_cfg (s : State) : (tick s).cfg = s.cfg := rfl
@[simp] theorem tick_v (s : State) : (tick s).v = s.v := rfl
@[simp] theorem tick_index (s : State) : (tick s).index = s.index := rfl
@[simp] theorem tick_pc (s : State) : (tick s).pc = s.pc := rfl
@[simp] theorem tick_dt (s : State) : (tick s).dt = countDown s.dt := rfl
@[simp] theorem tick_st (s : State) : (tick s).st = countDown s.st := rfl
@[simp] theorem tick_stack (s : State) : (tick s).stack = s.stack := rfl
@[simp] theorem tick_disp (s : State) : (tick s).disp = s.disp := rfl
@[simp] theorem tick_dirty (s : State) : (tick s).dirty = s.dirty := rfl
@[simp] theorem tick_halt (s : State) : (tick s).halt = s.halt := rfl
@[simp] theorem tick_fault (s : State) : (tick s).fault = s.fault := rfl
@[simp] theorem tick_mem (s : State) : (tick s).mem = s.mem := rfl
@[simp] theorem tick_keys (s : State) : (tick s).keys = s.keys := rfl
@[simp] theorem tick_rnd (s : State) : (tick s).rnd = s.rnd := rfl
@[simp] theorem tick_reply (s : State) : (tick s).reply = s.reply := rfl
@[simp] theorem tick_inputs (s : State) : (tick s).inputs = s.inputs := rfl
@[simp] theorem tick_clock (s : State) : (tick s).clock = s.clock := rfl

@[simp] theorem ticks_cfg (n : Nat) (s : State) : (ticks n s).cfg = s.cfg := rfl
@[simp] theorem ticks_v (n : Nat) (s : State) : (ticks n s).v = s.v := rfl
@[simp] theorem ticks_index (n : Nat) (s : State) : (ticks n s).index = s.index := rfl
@[simp] theorem ticks_pc (n : Nat) (s : State) : (ticks n s).pc = s.pc := rfl
@[simp] theorem ticks_dt (n : Nat) (s : State) : (ticks n s).dt = countDownBy n s.dt := rfl
@[simp] theorem ticks_st (n : Nat) (s : State) : (ticks n s).st = countDownBy n s.st := rfl
@[simp] theorem ticks_stack (n : Nat) (s : State) : (ticks n s).stack = s.stack := rfl
@[simp] theorem ticks_disp (n : Nat) (s : State) : (ticks n s).disp = s.disp := rfl
@[simp] theorem ticks_dirty (n : Nat) (s : State) : (ticks n s).dirty = s.dirty := rfl
@[simp] theorem ticks_halt (n : Nat) (s : State) : (ticks n s).halt = s.halt := rfl
@[simp] theorem ticks_fault (n : Nat) (s : State) : (ticks n s).fault = s.fault := rfl
@[simp] theorem ticks_mem (n : Nat) (s : State) : (ticks n s).mem = s.mem := rfl
@[simp] theorem ticks_keys (n : Nat) (s : State) : (ticks n s).keys = s.keys := rfl
@[simp] theorem ticks_rnd (n : Nat) (s : State) : (ticks n s).rnd = s.rnd := rfl
@[simp] theorem ticks_reply (n : Nat) (s : State) : (ticks n s).reply = s.reply := rfl
@[simp] theorem ticks_inputs (n : Nat) (s : State) : (ticks n s).inputs = s.inputs := rfl
@[simp] theorem ticks_clock (n : Nat) (s : State) : (ticks n s).clock = s.clock := rfl

@[simp] theorem takeFault_cfg (r : FaultRecord) (s : State) : (takeFault r s).cfg = s.cfg := by unfold takeFault; split <;> rfl
@[simp] theorem takeFault_v (r : FaultRecord) (s : State) : (takeFault r s).v = s.v := by unfold takeFault; split <;> rfl
@[simp] theorem takeFault_index (r : FaultRecord) (s : State) : (takeFault r s).index = s.index := by unfold takeFault; split <;> rfl
@[simp] theorem takeFault_pc (r : FaultRecord) (s : State) : (takeFault r s).pc = s.pc := by unfold takeFault; split <;> rfl
@[simp] theorem takeFault_dt (r : FaultRecord) (s : State) : (takeFault r s).dt = s.dt := by unfold takeFault; split <;> rfl
@[simp] theorem takeFault_st (r : FaultRecord) (s : State) : (takeFault r s).st = s.st := by unfold takeFault; split <;> rfl
@[simp] theorem takeFault_stack (r : FaultRecord) (s : State) : (takeFault r s).stack = s.stack := by unfold takeFault; split <;> rfl
@[simp] theorem takeFault_disp (r : FaultRecord) (s : State) : (takeFault r s).disp = s.disp := by unfold takeFault; split <;> rfl
@[simp] theorem takeFault_dirty (r : FaultRecord) (s : State) : (takeFault r s).dirty = s.dirty := by unfold takeFault; split <;> rfl
@[simp] theorem takeFault_mem (r : FaultRecord) (s : State) : (takeFault r s).mem = s.mem := by unfold takeFault; split <;> rfl
@[simp] theorem takeFault_keys (r : FaultRecord) (s : State) : (takeFault r s).keys = s.keys := by unfold takeFault; split <;> rfl
@[simp] theorem takeFault_rnd (r : FaultRecord) (s : State) : (takeFault r s).rnd = s.rnd := by unfold takeFault; split <;> rfl
@[simp] theorem takeFault_inputs (r : FaultRecord) (s : State) : (takeFault r s).inputs = s.inputs := by unfold takeFault; split <;> rfl
@[simp] theorem takeFault_clock (r : FaultRecord) (s : State) : (takeFault r s).clock = s.clock := by unfold takeFault; split <;> rfl

@[simp] theorem raiseIn_cfg (i : Instr) (c : FaultCode) (a : Option Word) (s : State) : (raiseIn i c a s).cfg = s.cfg := takeFault_cfg _ s
@[simp] theorem raiseIn_v (i : Instr) (c : FaultCode) (a : Option Word) (s : State) : (raiseIn i c a s).v = s.v := takeFault_v _ s
@[simp] theorem raiseIn_index (i : Instr) (c : FaultCode) (a : Option Word) (s : State) : (raiseIn i c a s).index = s.index := takeFault_index _ s
@[simp] theorem raiseIn_pc (i : Instr) (c : FaultCode) (a : Option Word) (s : State) : (raiseIn i c a s).pc = s.pc := takeFault_pc _ s
@[simp] theorem raiseIn_dt (i : Instr) (c : FaultCode) (a : Option Word) (s : State) : (raiseIn i c a s).dt = s.dt := takeFault_dt _ s
@[simp] theorem raiseIn_st (i : Instr) (c : FaultCode) (a : Option Word) (s : State) : (raiseIn i c a s).st = s.st := takeFault_st _ s
@[simp] theorem raiseIn_stack (i : Instr) (c : FaultCode) (a : Option Word) (s : State) : (raiseIn i c a s).stack = s.stack := takeFault_stack _ s
@[simp] theorem raiseIn_disp (i : Instr) (c : FaultCode) (a : Option Word) (s : State) : (raiseIn i c a s).disp = s.disp := takeFault_disp _ s
@[simp] theorem raiseIn_dirty (i : Instr) (c : FaultCode) (a : Option Word) (s : State) : (raiseIn i c a s).dirty = s.dirty := takeFault_dirty _ s
@[simp] theorem raiseIn_mem (i : Instr) (c : FaultCode) (a : Option Word) (s : State) : (raiseIn i c a s).mem = s.mem := takeFault_mem _ s
@[simp] theorem raiseIn_keys (i : Instr) (c : FaultCode) (a : Option Word) (s : State) : (raiseIn i c a s).keys = s.keys := takeFault_keys _ s
@[simp] theorem raiseIn_rnd (i : Instr) (c : FaultCode) (a : Option Word) (s : State) : (raiseIn i c a s).rnd = s.rnd := takeFault_rnd _ s
@[simp] theorem raiseIn_inputs (i : Instr) (c : FaultCode) (a : Option Word) (s : State) : (raiseIn i c a s).inputs = s.inputs := takeFault_inputs _ s
@[simp] theorem raiseIn_clock (i : Instr) (c : FaultCode) (a : Option Word) (s : State) : (raiseIn i c a s).clock = s.clock := takeFault_clock _ s

end Sys2Proof.Machine
end

