-- ==== Sys2Proof/Laws/Registers.lean ====
section
/-!
SUPPORT. Reading a general register after a write, for every operation that writes registers (R12, R20, R150, R185).
-/

namespace Sys2Proof.Machine

@[simp] theorem reg_setReg_same (s : State) (x : RegIdx) (b : Byte) : (s.setReg x b).reg x = b := by
  simp [State.reg, State.setReg]

theorem reg_setReg_of_ne (s : State) {x r : RegIdx} (b : Byte) (h : r ≠ x) : (s.setReg x b).reg r = s.reg r := by
  have : x.toNat ≠ r.toNat := fun e => h (BitVec.eq_of_toNat_eq e.symm)
  simp [State.reg, State.setReg, Vector.getElem_set_ne, this]

/-- One equation for reading after a write. -/
theorem reg_setReg (s : State) (x r : RegIdx) (b : Byte) : (s.setReg x b).reg r = if r = x then b else s.reg r := by
  split
  · subst_vars; simp
  · exact reg_setReg_of_ne s b ‹_›

/-- Registers depend on the register file only. -/
theorem reg_congr {s t : State} (h : t.v = s.v) (r : RegIdx) : t.reg r = s.reg r := by simp [State.reg, h]

@[simp] theorem reg_jump (s : State) (a : Word) (r : RegIdx) : (s.jump a).reg r = s.reg r := rfl

@[simp] theorem reg_skipIf (s : State) (c : Bool) (r : RegIdx) : (s.skipIf c).reg r = s.reg r := reg_congr (by simp) r

@[simp] theorem reg_autoIncrement (s : State) (x r : RegIdx) : (s.autoIncrement x).reg r = s.reg r := reg_congr (by simp) r

@[simp] theorem reg_takeFault (f : FaultRecord) (s : State) (r : RegIdx) : (takeFault f s).reg r = s.reg r :=
  reg_congr (by simp) r

@[simp] theorem reg_raiseIn (i : Instr) (c : FaultCode) (a : Option Word) (s : State) (r : RegIdx) :
    (raiseIn i c a s).reg r = s.reg r := reg_congr (by simp) r

@[simp] theorem reg_tick (s : State) (r : RegIdx) : (tick s).reg r = s.reg r := rfl

@[simp] theorem reg_accept (s : State) (r : RegIdx) : s.accept.reg r = s.reg r := reg_congr (by simp) r

/-- `V[0]` to `V[x]` come from memory, the registers above stay (R185). -/
theorem reg_loadRegs (s : State) (x r : RegIdx) :
    (s.loadRegs x).reg r = if r.toNat ≤ x.toNat then Memory.read s.mem (s.index.toNat + r.toNat) else s.reg r := by
  simp [State.reg, State.loadRegs]

/-- The source of a shift in `V[x]`; every other register stays (R159, R161). -/
theorem reg_shiftSource (s : State) (x y r : RegIdx) :
    (s.shiftSource x y).reg r = if s.cfg.shiftUsesVy = true ∧ r = x then s.reg y else s.reg r := by
  rw [State.shiftSource, reg_setReg]
  cases s.cfg.shiftUsesVy <;> simp
  exact fun h => h ▸ rfl

/-- What a flag-setting rule leaves in each register (R150). -/
theorem reg_flagThenResult (s : State) (x r : RegIdx) (f : Byte) (g : State → Byte) :
    (s.flagThenResult x f g).reg r =
      if r = x then g (s.operandsFrom (s.setReg VF f)) else if r = VF then f else s.reg r := by
  simp only [State.flagThenResult, reg_setReg]

theorem operandsFrom_sequential {s t : State} (h : s.cfg.aluVfOrder = .sequential) : s.operandsFrom t = t := by
  simp [State.operandsFrom, h]

theorem operandsFrom_latched {s t : State} (h : s.cfg.aluVfOrder = .latched) : s.operandsFrom t = s := by
  simp [State.operandsFrom, h]

/-- `V[0]` to `V[x]` as a list: x + 1 bytes (R184). -/
@[simp] theorem regsUpTo_length (s : State) (x : RegIdx) : (s.regsUpTo x).length = x.toNat + 1 := by
  simp [State.regsUpTo]; omega

theorem regsUpTo_getElem (s : State) (x r : RegIdx) (h : r.toNat < (s.regsUpTo x).length) :
    (s.regsUpTo x)[r.toNat] = s.reg r := by
  simp [State.regsUpTo, State.reg]

end Sys2Proof.Machine
end

