-- ==== Sys2Proof/Laws/Step.lean ====
section
/-!
SUPPORT. What the shared operations and a step can do, once each: trap entry, the range check, the key lookup, the inputs, the
stages before execute.
-/

namespace Sys2Proof.Machine

/-! ### Trap entry (R244) -/

/-- A fault that halts latches HALT and FAULT. -/
theorem takeFault_of_halts {r : FaultRecord} {s : State} (h : r.code.halts s.cfg.unknownPolicy = true) :
    takeFault r s = { s with halt := true, fault := some r, reply := .fault r } := by
  rw [takeFault, if_pos h]

/-- A fault that does not halt is only reported. -/
theorem takeFault_of_not_halts {r : FaultRecord} {s : State} (h : r.code.halts s.cfg.unknownPolicy = false) :
    takeFault r s = { s with reply := .fault r } := by
  rw [takeFault, if_neg (by simp [h])]

@[simp] theorem takeFault_reply (r : FaultRecord) (s : State) : (takeFault r s).reply = .fault r := by
  unfold takeFault; split <;> rfl

/-- Every fault of the execute stage halts (R240). -/
theorem halts_of_ne {c : FaultCode} (p : UnknownPolicy) (h : c ≠ .unknownInstruction) : c.halts p = true := by
  cases c <;> simp_all [FaultCode.halts]

/-- What raising a fault in the execute stage leaves (R241, R243, R244). -/
theorem raiseIn_eq (i : Instr) {c : FaultCode} (a : Option Word) (s : State) (h : c ≠ .unknownInstruction) :
    raiseIn i c a s =
      let r : FaultRecord := { code := c, word := some (encode i), pc := s.pc - 2, addr := a }
      { s with halt := true, fault := some r, reply := .fault r } :=
  takeFault_of_halts (halts_of_ne _ h)

/-! ### Operand forms -/

/-- An instruction that accesses data either faults and writes nothing, or does what it does in range. -/
theorem withData_cases {s : State} {i : Instr} {count : Nat} {k t : State} (h : s.withData i count k = .next t) :
    (∃ a, firstOutside s.index count = some a ∧ t = raiseIn i .dataOutOfRange (some a) s) ∨
      (firstOutside s.index count = none ∧ t = k) := by
  unfold State.withData at h
  split at h
  · exact .inl ⟨_, by assumption, by cases h; rfl⟩
  · exact .inr ⟨by assumption, by cases h; rfl⟩

theorem withData_of_none {s : State} {i : Instr} {count : Nat} {k : State} (h : firstOutside s.index count = none) :
    s.withData i count k = .next k := by
  simp [State.withData, h]

theorem withData_of_some {s : State} {i : Instr} {count : Nat} {k : State} {a : Word}
    (h : firstOutside s.index count = some a) : s.withData i count k = .next (raiseIn i .dataOutOfRange (some a) s) := by
  simp [State.withData, h]

/-- A key instruction either faults and writes nothing, or goes on with the key's state. -/
theorem withKey_cases {s : State} {i : Instr} {x : RegIdx} {k : Bool → State} {t : State} (h : s.withKey i x k = .next t) :
    (s.cfg.keyCount ≤ (s.reg x).toNat ∧ t = raiseIn i .keyIndexOutOfRange (some (byteWord (s.reg x))) s) ∨
      ((s.reg x).toNat < s.cfg.keyCount ∧ t = k (s.keyDown (s.reg x).toNat)) := by
  unfold State.withKey at h
  split at h
  · exact .inl ⟨by assumption, by cases h; rfl⟩
  · exact .inr ⟨by omega, by cases h; rfl⟩

/-- The auto-increment of I (R184, R185). -/
theorem autoIncrement_index (s : State) (x : RegIdx) :
    (s.autoIncrement x).index = if s.cfg.ldstIncrementsI = true then s.index + x.zeroExtend 16 + 1 else s.index := rfl

/-! ### The inputs of a step -/

/-- A free input has KEY_COUNT keys. -/
@[simp] theorem freeInput_keys_length (count n : Nat) : (freeInput count n).keys.length = count := by
  simp [freeInput]

theorem accept_dt (s : State) : s.accept.dt = countDownBy s.nextInput.ticks s.dt := by
  simp [State.accept]

theorem accept_st (s : State) : s.accept.st = countDownBy s.nextInput.ticks s.st := by
  simp [State.accept]

/-! ### The fetched state (R121, R122) -/

@[simp] theorem State.fetched_cfg (s : State) : s.fetched.cfg = s.cfg := State.accept_cfg s
@[simp] theorem State.fetched_v (s : State) : s.fetched.v = s.v := State.accept_v s
@[simp] theorem State.fetched_index (s : State) : s.fetched.index = s.index := State.accept_index s
@[simp] theorem State.fetched_stack (s : State) : s.fetched.stack = s.stack := State.accept_stack s
@[simp] theorem State.fetched_disp (s : State) : s.fetched.disp = s.disp := State.accept_disp s
@[simp] theorem State.fetched_halt (s : State) : s.fetched.halt = s.halt := State.accept_halt s
@[simp] theorem State.fetched_fault (s : State) : s.fetched.fault = s.fault := State.accept_fault s
@[simp] theorem State.fetched_mem (s : State) : s.fetched.mem = s.mem := State.accept_mem s
@[simp] theorem State.fetched_pc (s : State) : s.fetched.pc = s.pc + 2 := rfl
@[simp] theorem State.fetched_dirty (s : State) : s.fetched.dirty = false := rfl
@[simp] theorem State.fetched_keys (s : State) : s.fetched.keys = s.nextInput.keys := rfl
@[simp] theorem State.fetched_rnd (s : State) : s.fetched.rnd = s.nextInput.rnd := rfl
@[simp] theorem State.fetched_reply (s : State) : s.fetched.reply = .ok := rfl
@[simp] theorem State.fetched_dt (s : State) : s.fetched.dt = countDownBy s.nextInput.ticks s.dt := accept_dt s
@[simp] theorem State.fetched_st (s : State) : s.fetched.st = countDownBy s.nextInput.ticks s.st := accept_st s
@[simp] theorem reg_fetched (s : State) (r : RegIdx) : s.fetched.reg r = s.reg r := reg_congr (by simp) r

/-! ### The stages of a step (R120 to R123) -/

theorem fetchOutside_eq_none {pc : Word} : fetchOutside pc = none ↔ pc.toNat ≤ 4094 := by
  unfold fetchOutside
  split
  · simp_all
  · split <;> simp_all

/-- An instruction executes only when the step port is called as it must be, the fetch is in range and the bytes at pc decode
to it, and in the state R122 leaves. -/
theorem beginStep_execute {s s' : State} {i : Instr} (h : beginStep s = .execute i s') :
    s.Ready ∧ s.pc.toNat ≤ 4094 ∧ s.decodedAtPc = .instr i ∧ s' = s.fetched := by
  unfold beginStep at h
  split at h
  · cases h
  split at h
  · cases h
  split at h
  · cases h
  have hr : s.Ready := by simp_all [State.Ready]
  unfold fetchDecode at h
  simp only [State.accept_pc] at h
  split at h
  · cases h
  · rename_i hf
    rw [fetchOutside_eq_none] at hf
    simp only [fetchedBytes, State.accept_mem] at h
    split at h
    · cases h
    · rename_i i' hd
      cases h
      exact ⟨hr, hf, by simpa [State.decodedAtPc] using hd, by simp [State.fetched]⟩

/-- The fault a step raises before the execute stage: FetchOutOfRange without advancing pc (R122), or UnknownInstruction
after advancing it (R123). -/
theorem beginStep_over_next {s t : State} (h : beginStep s = .over (.next t)) :
    s.Ready ∧
      ((∃ a, fetchOutside s.pc = some a ∧
          t = takeFault { code := .fetchOutOfRange, word := none, pc := s.pc, addr := some a } { s.accept with dirty := false }) ∨
        (∃ w, s.pc.toNat ≤ 4094 ∧ s.decodedAtPc = .unknown w ∧
          t = takeFault { code := .unknownInstruction, word := some w, pc := s.pc, addr := none } s.fetched)) := by
  unfold beginStep at h
  split at h
  · cases h
  split at h
  · cases h
  split at h
  · cases h
  have hr : s.Ready := by simp_all [State.Ready]
  refine ⟨hr, ?_⟩
  unfold fetchDecode at h
  simp only [State.accept_pc] at h
  split at h
  · rename_i a hf
    cases h
    exact .inl ⟨a, hf, by simp⟩
  · rename_i hf
    rw [fetchOutside_eq_none] at hf
    simp only [fetchedBytes, State.accept_mem] at h
    split at h
    · rename_i w hd
      cases h
      exact .inr ⟨w, hf, by simpa [State.decodedAtPc] using hd, by simp [State.fetched]⟩
    · cases h

/-- What a step that answers a next state has done: a fetch fault, an unknown instruction, or one instruction executed. -/
theorem step_cases {s t : State} (h : step s = .next t) :
    s.Ready ∧
      ((∃ a, fetchOutside s.pc = some a ∧
          t = takeFault { code := .fetchOutOfRange, word := none, pc := s.pc, addr := some a } { s.accept with dirty := false }) ∨
        (∃ w, s.pc.toNat ≤ 4094 ∧ s.decodedAtPc = .unknown w ∧
          t = takeFault { code := .unknownInstruction, word := some w, pc := s.pc, addr := none } s.fetched) ∨
        (∃ i, s.pc.toNat ≤ 4094 ∧ s.decodedAtPc = .instr i ∧ exec i s.fetched = .next t)) := by
  unfold step at h
  split at h
  · rename_i r hb
    subst h
    obtain ⟨hr, h' | h'⟩ := beginStep_over_next hb
    · exact ⟨hr, .inl h'⟩
    · exact ⟨hr, .inr (.inl h')⟩
  · rename_i i s' hb
    obtain ⟨hr, hpc, hd, rfl⟩ := beginStep_execute hb
    exact ⟨hr, .inr (.inr ⟨i, hpc, hd, h⟩)⟩

/-! ### Frames -/

/-- A frame with more elements left open is weaker. -/
theorem sameBut_mono {ps qs : List Part} {s t : State} (h : ∀ p ∈ ps, p ∈ qs) (f : sameBut ps s t) : sameBut qs s t := by
  obtain ⟨f1, f2, f3, f4, f5, f6, f7, f8, f9, f10, rest⟩ := f
  exact ⟨f1.imp_left (h _), f2.imp_left (h _), f3.imp_left (h _), f4.imp_left (h _), f5.imp_left (h _), f6.imp_left (h _),
    f7.imp_left (h _), f8.imp_left (h _), f9.imp_left (h _), f10.imp_left (h _), rest⟩

theorem sameBut_refl (ps : List Part) (s : State) : sameBut ps s s := by simp [sameBut]

end Sys2Proof.Machine
end

