-- ==== Sys2Proof/Laws/Exec.lean ====
section
/-!
SUPPORT. What the execute stage can do, once for all instructions: raise that instruction's fault, or write what its rule
writes. Every frame and every invariant is a case split over this.
-/

namespace Sys2Proof.Machine

/-- The instruction `i` has raised one of the faults of the execute stage from `s` (R240, R241, R242). -/
def Raised (i : Instr) (s t : State) : Prop :=
  ∃ c a, c ∈ [FaultCode.stackUnderflow, .stackOverflow, .dataOutOfRange, .keyIndexOutOfRange] ∧ t = raiseIn i c a s ∧
    (c ∈ [FaultCode.stackUnderflow, .stackOverflow] → a = none) ∧
    (c = .dataOutOfRange → a = some (BitVec.ofNat 16 (max s.index.toNat 4096))) ∧
    (c = .keyIndexOutOfRange →
      ∃ x, (i = .skp x ∨ i = .sknp x) ∧ s.cfg.keyCount ≤ (s.reg x).toNat ∧ a = some (byteWord (s.reg x)))

/-- What `i` writes when it raises nothing: the elements of the state its rule names, with the values that frames and
invariants need. -/
def Wrote (s t : State) : Instr → Prop
  | .sys _ => t = s
  | .cls => t = { s with disp := blankDisplay s.cfg.displayW s.cfg.displayH, dirty := true }
  | .ret => ∃ top rest, s.stack = top :: rest ∧ t = { s with pc := top, stack := rest }
  | .call nnn => s.sp ≠ s.cfg.stackDepth ∧ t = { s with stack := s.pc :: s.stack, pc := addrWord nnn }
  | .jp nnn => t = s.jump (addrWord nnn)
  | .jpV0 nnn => t = s.jump (addrWord nnn + byteWord (s.reg 0x0#4))
  | .seImm _ _ | .sneImm _ _ | .seReg _ _ | .sneReg _ _ | .skp _ | .sknp _ => ∃ c, t = s.skipIf c
  | .ldImm x _ | .addImm x _ | .ldReg x _ | .orReg x _ | .andReg x _ | .xorReg x _ | .rnd x _ | .ldVxDt x =>
    ∃ b, t = s.setReg x b
  | .addReg x _ | .subReg x _ | .subn x _ => ∃ f g, t = s.flagThenResult x f g
  | .shr x y | .shl x y => ∃ f g, t = (s.shiftSource x y).flagThenResult x f g
  | .ldI nnn => t = { s with index := addrWord nnn }
  | .addI x => t = { s with index := BitVec.ofNat 16 ((s.index.toNat + (s.reg x).toNat) % 2048) }
  | .ldF x => t = { s with index := byteWord (s.reg x &&& 0x0F#8) * 5#16 }
  | .drw x y n =>
    firstOutside s.index (s.rowsDrawn y n) = none ∧
      ∃ b, t = { s.setReg VF b with
        disp := (drawRows s.cfg.displayW (s.startX x) (s.startY y) s.mem s.index.toNat (s.rowsDrawn y n) ⟨s.disp, false⟩).disp
        dirty := true }
  | .ldVxK x => t = { s with pc := s.pc - 2 } ∨ ∃ b, t = s.setReg x b
  | .ldDtVx x => t = { s with dt := s.reg x }
  | .ldStVx x => t = { s with st := s.reg x }
  | .ldB x => firstOutside s.index 3 = none ∧
      t = { s with mem := Memory.writeBytes s.mem s.index.toNat (bcdDigits (s.reg x)) }
  | .ldMemVx x => firstOutside s.index (x.toNat + 1) = none ∧
      t = { s with mem := Memory.writeBytes s.mem s.index.toNat (s.regsUpTo x) }.autoIncrement x
  | .ldVxMem x => firstOutside s.index (x.toNat + 1) = none ∧ t = (s.loadRegs x).autoIncrement x

theorem raised_data {i : Instr} {s : State} {count : Nat} {a : Word} (h : firstOutside s.index count = some a) :
    Raised i s (raiseIn i .dataOutOfRange (some a) s) := by
  have : a = BitVec.ofNat 16 (max s.index.toNat 4096) := by
    unfold firstOutside at h; split at h <;> simp_all
  exact ⟨_, _, by simp, rfl, by simp, fun _ => by rw [this], by simp⟩

theorem raised_key {i : Instr} {s : State} {x : RegIdx} (hi : i = .skp x ∨ i = .sknp x) (h : s.cfg.keyCount ≤ (s.reg x).toNat) :
    Raised i s (raiseIn i .keyIndexOutOfRange (some (byteWord (s.reg x))) s) :=
  ⟨_, _, by simp, rfl, by simp, by simp, fun _ => ⟨x, hi, h, rfl⟩⟩

/-- The execute stage either raises the instruction's fault or writes what its rule writes (R124, R243). -/
theorem exec_cases {i : Instr} {s t : State} (h : exec i s = .next t) : Raised i s t ∨ Wrote s t i := by
  cases i <;> simp only [exec] at h
  case ret =>
    unfold execRet at h
    split at h <;> cases h
    · exact .inl ⟨.stackUnderflow, none, by simp, rfl, by simp, by simp, by simp⟩
    · exact .inr ⟨_, _, by assumption, rfl⟩
  case call =>
    unfold execCall at h
    split at h <;> cases h
    · exact .inl ⟨.stackOverflow, none, by simp, rfl, by simp, by simp, by simp⟩
    · exact .inr ⟨by assumption, rfl⟩
  case drw =>
    rcases withData_cases h with ⟨a, h1, rfl⟩ | ⟨h1, h2⟩
    · exact .inl (raised_data h1)
    · exact .inr ⟨h1, _, h2⟩
  case ldB =>
    rcases withData_cases h with ⟨a, h1, rfl⟩ | ⟨h1, h2⟩
    · exact .inl (raised_data h1)
    · exact .inr ⟨h1, h2⟩
  case ldMemVx =>
    rcases withData_cases h with ⟨a, h1, rfl⟩ | ⟨h1, h2⟩
    · exact .inl (raised_data h1)
    · exact .inr ⟨h1, h2⟩
  case ldVxMem =>
    rcases withData_cases h with ⟨a, h1, rfl⟩ | ⟨h1, h2⟩
    · exact .inl (raised_data h1)
    · exact .inr ⟨h1, h2⟩
  case skp =>
    rcases withKey_cases h with ⟨h1, rfl⟩ | ⟨h1, h2⟩
    · exact .inl (raised_key (.inl rfl) h1)
    · exact .inr ⟨_, h2⟩
  case sknp =>
    rcases withKey_cases h with ⟨h1, rfl⟩ | ⟨h1, h2⟩
    · exact .inl (raised_key (.inr rfl) h1)
    · exact .inr ⟨_, h2⟩
  case ldVxK =>
    unfold execLdVxK at h
    split at h <;> cases h
    · exact .inr (.inr ⟨_, rfl⟩)
    · exact .inr (.inl rfl)
  case sys | cls | jp | jpV0 | ldI | addI | ldF | ldDtVx | ldStVx => cases h; exact .inr rfl
  case seImm | sneImm | seReg | sneReg | ldImm | addImm | ldReg | orReg | andReg | xorReg | rnd | ldVxDt =>
    cases h; exact .inr ⟨_, rfl⟩
  case addReg | subReg | shr | subn | shl => cases h; exact .inr ⟨_, _, rfl⟩

end Sys2Proof.Machine
end

