-- ==== Sys2Proof/Laws/PerInstr.lean ====
section
/-!
SUPPORT. One law per instruction: its encoding is a word of its own row of the opcode map (R95).
-/

namespace Sys2Proof

theorem append_and_append {m n : Nat} (a c : BitVec m) (b d : BitVec n) : (a ++ b) &&& (c ++ d) = (a &&& c) ++ (b &&& d) := by
  ext i hi
  simp only [BitVec.getElem_and, BitVec.getElem_append]
  split <;> rfl

theorem packNnn_and (op : Nibble) (nnn : Addr) : packNnn op nnn &&& 0xF000#16 = packNnn op 0x000#12 := by
  have mask : 0xF000#16 = 0xF#4 ++ 0x000#12 := by decide
  have op4 : op &&& 0xF#4 = op := by revert op; decide
  rw [packNnn, mask, append_and_append, op4, BitVec.and_zero, packNnn]

theorem packXnn_and (op : Nibble) (x : RegIdx) (nn : Byte) : packXnn op x nn &&& 0xF000#16 = packNnn op 0x000#12 := by
  have : packXnn op x nn = packNnn op (x ++ nn) := by
    simp only [packXnn, packNnn]; ext i hi; simp; grind
  rw [this, packNnn_and]

theorem packXnn_and_nn (op : Nibble) (x : RegIdx) (nn : Byte) :
    packXnn op x nn &&& 0xF0FF#16 = packXnn op 0x0#4 nn := by
  have mask : 0xF0FF#16 = 0xF#4 ++ 0x0#4 ++ 0xFF#8 := by decide
  have op4 : op &&& 0xF#4 = op := by revert op; decide
  have nn8 : nn &&& 0xFF#8 = nn := by revert nn; decide
  rw [packXnn, mask, append_and_append, append_and_append, op4, nn8, BitVec.and_zero, packXnn]

theorem packXyn_and (op : Nibble) (x y : RegIdx) (n : Nibble) : packXyn op x y n &&& 0xF000#16 = packNnn op 0x000#12 := by
  have : packXyn op x y n = packXnn op x (y ++ n) := by
    simp only [packXyn, packXnn]; ext i hi; simp; grind
  rw [this, packXnn_and]

theorem packXyn_and_n (op : Nibble) (x y : RegIdx) (n : Nibble) :
    packXyn op x y n &&& 0xF00F#16 = packXyn op 0x0#4 0x0#4 n := by
  have mask : 0xF00F#16 = 0xF#4 ++ 0x0#4 ++ 0x0#4 ++ 0xF#4 := by decide
  have op4 : ∀ n : Nibble, n &&& 0xF#4 = n := by decide
  rw [packXyn, mask, append_and_append, append_and_append, append_and_append, op4, op4,
    BitVec.and_zero, BitVec.and_zero, packXyn]

/-- The encoding of a well-formed instruction is a word its row of R95 selects, and that row stands in the opcode map. -/
def Laws.EncodeRow.Statement (i : Instr) : Prop :=
  i.wf = true → i.row ∈ opcodeTable ∧ i.row.selects (encode i) = true

theorem Laws.EncodeRow.sys (nnn : Addr) : Laws.EncodeRow.Statement (.sys nnn) :=
  fun h => ⟨by simp [Instr.row, opcodeTable], by
    simp only [Instr.wf] at h
    simp [Instr.row, OpcodeRow.selects, encode, packNnn_and, h]; decide⟩

theorem Laws.EncodeRow.cls : Laws.EncodeRow.Statement .cls :=
  fun _ => ⟨by decide, by decide⟩

theorem Laws.EncodeRow.ret : Laws.EncodeRow.Statement .ret :=
  fun _ => ⟨by decide, by decide⟩

theorem Laws.EncodeRow.jp (nnn : Addr) : Laws.EncodeRow.Statement (.jp nnn) :=
  fun _ => ⟨by simp [Instr.row, opcodeTable], by simp [Instr.row, OpcodeRow.selects, encode, packNnn_and]; decide⟩

theorem Laws.EncodeRow.call (nnn : Addr) : Laws.EncodeRow.Statement (.call nnn) :=
  fun _ => ⟨by simp [Instr.row, opcodeTable], by simp [Instr.row, OpcodeRow.selects, encode, packNnn_and]; decide⟩

theorem Laws.EncodeRow.seImm (x : RegIdx) (nn : Byte) : Laws.EncodeRow.Statement (.seImm x nn) :=
  fun _ => ⟨by simp [Instr.row, opcodeTable], by simp [Instr.row, OpcodeRow.selects, encode, packXnn_and]; decide⟩

theorem Laws.EncodeRow.sneImm (x : RegIdx) (nn : Byte) : Laws.EncodeRow.Statement (.sneImm x nn) :=
  fun _ => ⟨by simp [Instr.row, opcodeTable], by simp [Instr.row, OpcodeRow.selects, encode, packXnn_and]; decide⟩

theorem Laws.EncodeRow.seReg (x : RegIdx) (y : RegIdx) : Laws.EncodeRow.Statement (.seReg x y) :=
  fun _ => ⟨by simp [Instr.row, opcodeTable], by simp [Instr.row, OpcodeRow.selects, encode, packXyn_and_n]; decide⟩

theorem Laws.EncodeRow.ldImm (x : RegIdx) (nn : Byte) : Laws.EncodeRow.Statement (.ldImm x nn) :=
  fun _ => ⟨by simp [Instr.row, opcodeTable], by simp [Instr.row, OpcodeRow.selects, encode, packXnn_and]; decide⟩

theorem Laws.EncodeRow.addImm (x : RegIdx) (nn : Byte) : Laws.EncodeRow.Statement (.addImm x nn) :=
  fun _ => ⟨by simp [Instr.row, opcodeTable], by simp [Instr.row, OpcodeRow.selects, encode, packXnn_and]; decide⟩

theorem Laws.EncodeRow.ldReg (x : RegIdx) (y : RegIdx) : Laws.EncodeRow.Statement (.ldReg x y) :=
  fun _ => ⟨by simp [Instr.row, opcodeTable], by simp [Instr.row, OpcodeRow.selects, encode, packXyn_and_n]; decide⟩

theorem Laws.EncodeRow.orReg (x : RegIdx) (y : RegIdx) : Laws.EncodeRow.Statement (.orReg x y) :=
  fun _ => ⟨by simp [Instr.row, opcodeTable], by simp [Instr.row, OpcodeRow.selects, encode, packXyn_and_n]; decide⟩

theorem Laws.EncodeRow.andReg (x : RegIdx) (y : RegIdx) : Laws.EncodeRow.Statement (.andReg x y) :=
  fun _ => ⟨by simp [Instr.row, opcodeTable], by simp [Instr.row, OpcodeRow.selects, encode, packXyn_and_n]; decide⟩

theorem Laws.EncodeRow.xorReg (x : RegIdx) (y : RegIdx) : Laws.EncodeRow.Statement (.xorReg x y) :=
  fun _ => ⟨by simp [Instr.row, opcodeTable], by simp [Instr.row, OpcodeRow.selects, encode, packXyn_and_n]; decide⟩

theorem Laws.EncodeRow.addReg (x : RegIdx) (y : RegIdx) : Laws.EncodeRow.Statement (.addReg x y) :=
  fun _ => ⟨by simp [Instr.row, opcodeTable], by simp [Instr.row, OpcodeRow.selects, encode, packXyn_and_n]; decide⟩

theorem Laws.EncodeRow.subReg (x : RegIdx) (y : RegIdx) : Laws.EncodeRow.Statement (.subReg x y) :=
  fun _ => ⟨by simp [Instr.row, opcodeTable], by simp [Instr.row, OpcodeRow.selects, encode, packXyn_and_n]; decide⟩

theorem Laws.EncodeRow.shr (x : RegIdx) (y : RegIdx) : Laws.EncodeRow.Statement (.shr x y) :=
  fun _ => ⟨by simp [Instr.row, opcodeTable], by simp [Instr.row, OpcodeRow.selects, encode, packXyn_and_n]; decide⟩

theorem Laws.EncodeRow.subn (x : RegIdx) (y : RegIdx) : Laws.EncodeRow.Statement (.subn x y) :=
  fun _ => ⟨by simp [Instr.row, opcodeTable], by simp [Instr.row, OpcodeRow.selects, encode, packXyn_and_n]; decide⟩

theorem Laws.EncodeRow.shl (x : RegIdx) (y : RegIdx) : Laws.EncodeRow.Statement (.shl x y) :=
  fun _ => ⟨by simp [Instr.row, opcodeTable], by simp [Instr.row, OpcodeRow.selects, encode, packXyn_and_n]; decide⟩

theorem Laws.EncodeRow.sneReg (x : RegIdx) (y : RegIdx) : Laws.EncodeRow.Statement (.sneReg x y) :=
  fun _ => ⟨by simp [Instr.row, opcodeTable], by simp [Instr.row, OpcodeRow.selects, encode, packXyn_and_n]; decide⟩

theorem Laws.EncodeRow.ldI (nnn : Addr) : Laws.EncodeRow.Statement (.ldI nnn) :=
  fun _ => ⟨by simp [Instr.row, opcodeTable], by simp [Instr.row, OpcodeRow.selects, encode, packNnn_and]; decide⟩

theorem Laws.EncodeRow.jpV0 (nnn : Addr) : Laws.EncodeRow.Statement (.jpV0 nnn) :=
  fun _ => ⟨by simp [Instr.row, opcodeTable], by simp [Instr.row, OpcodeRow.selects, encode, packNnn_and]; decide⟩

theorem Laws.EncodeRow.rnd (x : RegIdx) (nn : Byte) : Laws.EncodeRow.Statement (.rnd x nn) :=
  fun _ => ⟨by simp [Instr.row, opcodeTable], by simp [Instr.row, OpcodeRow.selects, encode, packXnn_and]; decide⟩

theorem Laws.EncodeRow.drw (x : RegIdx) (y : RegIdx) (n : Nibble) : Laws.EncodeRow.Statement (.drw x y n) :=
  fun _ => ⟨by simp [Instr.row, opcodeTable], by simp [Instr.row, OpcodeRow.selects, encode, packXyn_and]; decide⟩

theorem Laws.EncodeRow.skp (x : RegIdx) : Laws.EncodeRow.Statement (.skp x) :=
  fun _ => ⟨by simp [Instr.row, opcodeTable], by simp [Instr.row, OpcodeRow.selects, encode, packXnn_and_nn]; decide⟩

theorem Laws.EncodeRow.sknp (x : RegIdx) : Laws.EncodeRow.Statement (.sknp x) :=
  fun _ => ⟨by simp [Instr.row, opcodeTable], by simp [Instr.row, OpcodeRow.selects, encode, packXnn_and_nn]; decide⟩

theorem Laws.EncodeRow.ldVxDt (x : RegIdx) : Laws.EncodeRow.Statement (.ldVxDt x) :=
  fun _ => ⟨by simp [Instr.row, opcodeTable], by simp [Instr.row, OpcodeRow.selects, encode, packXnn_and_nn]; decide⟩

theorem Laws.EncodeRow.ldVxK (x : RegIdx) : Laws.EncodeRow.Statement (.ldVxK x) :=
  fun _ => ⟨by simp [Instr.row, opcodeTable], by simp [Instr.row, OpcodeRow.selects, encode, packXnn_and_nn]; decide⟩

theorem Laws.EncodeRow.ldDtVx (x : RegIdx) : Laws.EncodeRow.Statement (.ldDtVx x) :=
  fun _ => ⟨by simp [Instr.row, opcodeTable], by simp [Instr.row, OpcodeRow.selects, encode, packXnn_and_nn]; decide⟩

theorem Laws.EncodeRow.ldStVx (x : RegIdx) : Laws.EncodeRow.Statement (.ldStVx x) :=
  fun _ => ⟨by simp [Instr.row, opcodeTable], by simp [Instr.row, OpcodeRow.selects, encode, packXnn_and_nn]; decide⟩

theorem Laws.EncodeRow.addI (x : RegIdx) : Laws.EncodeRow.Statement (.addI x) :=
  fun _ => ⟨by simp [Instr.row, opcodeTable], by simp [Instr.row, OpcodeRow.selects, encode, packXnn_and_nn]; decide⟩

theorem Laws.EncodeRow.ldF (x : RegIdx) : Laws.EncodeRow.Statement (.ldF x) :=
  fun _ => ⟨by simp [Instr.row, opcodeTable], by simp [Instr.row, OpcodeRow.selects, encode, packXnn_and_nn]; decide⟩

theorem Laws.EncodeRow.ldB (x : RegIdx) : Laws.EncodeRow.Statement (.ldB x) :=
  fun _ => ⟨by simp [Instr.row, opcodeTable], by simp [Instr.row, OpcodeRow.selects, encode, packXnn_and_nn]; decide⟩

theorem Laws.EncodeRow.ldMemVx (x : RegIdx) : Laws.EncodeRow.Statement (.ldMemVx x) :=
  fun _ => ⟨by simp [Instr.row, opcodeTable], by simp [Instr.row, OpcodeRow.selects, encode, packXnn_and_nn]; decide⟩

theorem Laws.EncodeRow.ldVxMem (x : RegIdx) : Laws.EncodeRow.Statement (.ldVxMem x) :=
  fun _ => ⟨by simp [Instr.row, opcodeTable], by simp [Instr.row, OpcodeRow.selects, encode, packXnn_and_nn]; decide⟩

end Sys2Proof
end

