-- ==== Sys2Proof/Laws/Ports.lean ====
section
/-!
SUPPORT. What the ports of R40 can do, once each: the loaders (R76, R77, R257) and a step with given inputs (R120).
-/

namespace Sys2Proof.Machine

/-- `load_font` either refuses the image and writes nothing, or writes it at address 0. -/
theorem loadFont_cases (image : List Byte) (s : State) :
    (512 < image.length ∧ loadFont image s = (s, .loadError)) ∨
      (image.length ≤ 512 ∧ loadFont image s = ({ s with mem := Memory.writeBytes s.mem 0 image }, .ok)) := by
  unfold loadFont
  split
  · exact .inl ⟨by assumption, rfl⟩
  · exact .inr ⟨by simp_all, rfl⟩

/-- `load_program` either refuses the image and writes nothing, or writes it at address 512. -/
theorem loadProgram_cases (image : List Byte) (s : State) :
    (3584 < image.length ∧ loadProgram image s = (s, .loadError)) ∨
      (image.length ≤ 3584 ∧ loadProgram image s = ({ s with mem := Memory.writeBytes s.mem 512 image }, .ok)) := by
  unfold loadProgram
  split
  · exact .inl ⟨by assumption, rfl⟩
  · exact .inr ⟨by simp_all, rfl⟩

/-- The input put first is the one the step takes. -/
@[simp] theorem nextInput_cons (s : State) (inp : StepInput) (rest : List StepInput) :
    State.nextInput { s with inputs := inp :: rest } = inp := rfl

/-- Taking the input put first leaves the others. -/
@[simp] theorem dropInput_cons (s : State) (inp : StepInput) (rest : List StepInput) :
    State.dropInput { s with inputs := inp :: rest } = { s with inputs := rest } := rfl

end Sys2Proof.Machine
end

