-- ==== Sys2Proof/Tests/Slice0.lean ====
section
/-!
SUPPORT. Tests: the ill-formed term WellFormed refuses, one word of each row of R95 written out from the spec's encoding, and
single steps whose expected results stand in 95_test_vectors.md (the vector's id is each test's name or comment).
-/

namespace Sys2Proof.Tests

open Sys2Proof.Machine

/-! ### WellFormed -/

/-- R95, row 0nnn: x = 0 is no SYS. -/
theorem test_wf_refuses_sys_0FF : (Instr.sys 0x0FF#12).wf = false := by decide

theorem test_wf_admits_sys_100 : (Instr.sys 0x100#12).wf = true := by decide

/-! ### Decoding: a word of each row, bits from R92 and R95 -/

theorem test_decode_sys : decode 0x0123#16 = .instr (.sys 0x123#12) := by decide
theorem test_decode_cls : decode 0x00E0#16 = .instr .cls := by decide
theorem test_decode_ret : decode 0x00EE#16 = .instr .ret := by decide
theorem test_decode_jp : decode 0x1234#16 = .instr (.jp 0x234#12) := by decide
theorem test_decode_call : decode 0x2300#16 = .instr (.call 0x300#12) := by decide
theorem test_decode_seImm : decode 0x3342#16 = .instr (.seImm 0x3#4 0x42#8) := by decide
theorem test_decode_sneImm : decode 0x4342#16 = .instr (.sneImm 0x3#4 0x42#8) := by decide
theorem test_decode_seReg : decode 0x5120#16 = .instr (.seReg 0x1#4 0x2#4) := by decide
theorem test_decode_ldImm : decode 0x6A2F#16 = .instr (.ldImm 0xA#4 0x2F#8) := by decide
theorem test_decode_addImm : decode 0x71FF#16 = .instr (.addImm 0x1#4 0xFF#8) := by decide
theorem test_decode_ldReg : decode 0x8120#16 = .instr (.ldReg 0x1#4 0x2#4) := by decide
theorem test_decode_orReg : decode 0x8121#16 = .instr (.orReg 0x1#4 0x2#4) := by decide
theorem test_decode_andReg : decode 0x8122#16 = .instr (.andReg 0x1#4 0x2#4) := by decide
theorem test_decode_xorReg : decode 0x8123#16 = .instr (.xorReg 0x1#4 0x2#4) := by decide
theorem test_decode_addReg : decode 0x8124#16 = .instr (.addReg 0x1#4 0x2#4) := by decide
theorem test_decode_subReg : decode 0x8125#16 = .instr (.subReg 0x1#4 0x2#4) := by decide
theorem test_decode_shr : decode 0x8126#16 = .instr (.shr 0x1#4 0x2#4) := by decide
theorem test_decode_subn : decode 0x8127#16 = .instr (.subn 0x1#4 0x2#4) := by decide
theorem test_decode_shl : decode 0x812E#16 = .instr (.shl 0x1#4 0x2#4) := by decide
theorem test_decode_sneReg : decode 0x9120#16 = .instr (.sneReg 0x1#4 0x2#4) := by decide
theorem test_decode_ldI : decode 0xA2F0#16 = .instr (.ldI 0x2F0#12) := by decide
theorem test_decode_jpV0 : decode 0xB300#16 = .instr (.jpV0 0x300#12) := by decide
theorem test_decode_rnd : decode 0xC30F#16 = .instr (.rnd 0x3#4 0x0F#8) := by decide
theorem test_decode_drw : decode 0xD012#16 = .instr (.drw 0x0#4 0x1#4 0x2#4) := by decide
theorem test_decode_skp : decode 0xE19E#16 = .instr (.skp 0x1#4) := by decide
theorem test_decode_sknp : decode 0xE1A1#16 = .instr (.sknp 0x1#4) := by decide
theorem test_decode_ldVxDt : decode 0xF307#16 = .instr (.ldVxDt 0x3#4) := by decide
theorem test_decode_ldVxK : decode 0xF30A#16 = .instr (.ldVxK 0x3#4) := by decide
theorem test_decode_ldDtVx : decode 0xF315#16 = .instr (.ldDtVx 0x3#4) := by decide
theorem test_decode_ldStVx : decode 0xF318#16 = .instr (.ldStVx 0x3#4) := by decide
theorem test_decode_addI : decode 0xF21E#16 = .instr (.addI 0x2#4) := by decide
theorem test_decode_ldF : decode 0xF429#16 = .instr (.ldF 0x4#4) := by decide
theorem test_decode_ldB : decode 0xF533#16 = .instr (.ldB 0x5#4) := by decide
theorem test_decode_ldMemVx : decode 0xF255#16 = .instr (.ldMemVx 0x2#4) := by decide
theorem test_decode_ldVxMem : decode 0xF265#16 = .instr (.ldVxMem 0x2#4) := by decide

/-- V-DEC-1 to V-DEC-10: words of every band of R96. -/
theorem test_decode_unknown :
    [0x0000#16, 0x00E1#16, 0x00FF#16, 0x5121#16, 0x5001#16, 0x8128#16, 0x812D#16, 0x812F#16, 0x9121#16, 0xE19F#16, 0xE000#16,
      0xF000#16, 0xF108#16, 0xFFFF#16].all (fun w => decode w == .unknown w) = true := by decide

/-- R64: byte 1, at the lower address, is the high byte. -/
theorem test_decode_bytes : decodeBytes 0x6A#8 0x01#8 = .instr (.ldImm 0xA#4 0x01#8) := by decide

theorem test_decodeTableWord : decodeTableWord 16 0x8124 = some (.addReg 0x1#4 0x2#4) := by decide

/-! ### The state the vectors start from (95_test_vectors.md section 0) -/

/-- No key pressed. -/
def noKeys : List Bool := List.replicate 16 false

/-- Only the keys `ks` pressed. -/
def keysDown (ks : List Nat) : List Bool := (List.range 16).map (ks.contains ·)

/-- The reset state with both quirk toggles off, no tick before the step, `keys` and the random byte 0xA5 given. -/
def vec (keys : List Bool := noKeys) (cfg : Config := Config.default) : State :=
  State.resetWith { cfg with shiftUsesVy := false, ldstIncrementsI := false } [{ ticks := 0, keys := keys, rnd := 0xA5#8 }] 0

/-- The same with both quirk toggles on. -/
def vecQuirks : State :=
  State.resetWith { Config.default with shiftUsesVy := true, ldstIncrementsI := true }
    [{ ticks := 0, keys := noKeys, rnd := 0xA5#8 }] 0

/-- The same with ALU_VF_ORDER = latched. -/
def vecLatched : State := vec (cfg := { Config.default with aluVfOrder := .latched })

/-- One step of the word `w` at pc ends in a next state with this property. -/
def after (s : State) (w : Nat) (p : State → Bool) : Bool :=
  match step (s.withFetchWord 16 w) with
  | .next t => p t
  | .fault _ => false
  | .refused _ => false

/-- The step halted with this record. -/
def haltedWith (c : FaultCode) (w : Option Word) (pc : Word) (a : Option Word) (t : State) : Bool :=
  t.halt && t.fault == some { code := c, word := w, pc := pc, addr := a }

/-! ### Sequencer (R120 to R136) -/

theorem test_sys_V_DEC_4 : after vec 0x0100 (fun t => t.pc == 0x202 && t.reply == .ok) = true := by decide

theorem test_ret_V_CTL_4 : after { vec with stack := [0x0202] } 0x00EE
    (fun t => t.pc == 0x202 && t.stack == [] && !t.halt) = true := by decide

theorem test_ret_V_CTL_5 : after vec 0x00EE
    (fun t => haltedWith .stackUnderflow (some 0x00EE) 0x200 none t && t.pc == 0x202) = true := by decide

theorem test_jp_V_CTL_1 : after vec 0x1ABC (fun t => t.pc == 0x0ABC) = true := by decide

theorem test_call_V_CTL_3 : after vec 0x2ABC (fun t => t.pc == 0x0ABC && t.stack == [0x0202]) = true := by decide

theorem test_call_V_CTL_6 : after { vec with stack := List.replicate 16 0x0202 } 0x2300
    (fun t => haltedWith .stackOverflow (some 0x2300) 0x200 none t && t.sp == 16 && t.pc == 0x202) = true := by decide

theorem test_seImm_V_CTL_7 : after (vec.setReg 3 0x42) 0x3342 (fun t => t.pc == 0x204) = true := by decide

theorem test_seImm_V_CTL_8 : after (vec.setReg 3 0x42) 0x3343 (fun t => t.pc == 0x202) = true := by decide

theorem test_sneImm_V_CTL_10 : after (vec.setReg 3 0x42) 0x4343 (fun t => t.pc == 0x204) = true := by decide

theorem test_seReg_V_CTL_12 : after ((vec.setReg 1 7).setReg 2 8) 0x5120 (fun t => t.pc == 0x202) = true := by decide

theorem test_sneReg_V_CTL_13 : after ((vec.setReg 1 7).setReg 2 8) 0x9120 (fun t => t.pc == 0x204) = true := by decide

theorem test_jpV0_V_CTL_17 : after (vec.setReg 0 0xFF) 0xBFFF (fun t => t.pc == 0x10FE && !t.halt) = true := by decide

theorem test_fetch_V_SEQ_3 : after { vec with pc := 0x1000 } 0
    (fun t => haltedWith .fetchOutOfRange none 0x1000 (some 0x1000) t && t.pc == 0x1000) = true := by decide

theorem test_fetch_V_SEQ_4 : after { vec with pc := 0x0FFF } 0
    (fun t => haltedWith .fetchOutOfRange none 0x0FFF (some 0x1000) t && t.pc == 0x0FFF) = true := by decide

theorem test_unknown_V_DEC_1 : after vec 0x0000
    (fun t => haltedWith .unknownInstruction (some 0x0000) 0x200 none t && t.pc == 0x202) = true := by decide

theorem test_unknown_V_DEC_11 : after (vec (cfg := { Config.default with unknownPolicy := .continue })) 0x5001
    (fun t => !t.halt && t.fault == none && t.pc == 0x202 &&
      t.reply == .fault { code := .unknownInstruction, word := some 0x5001, pc := 0x200, addr := none }) = true := by decide

theorem test_dirty_V_SEQ_6 : after { vec with dirty := true } 0x6000 (fun t => !t.dirty && t.pc == 0x202) = true := by decide

/-! ### ALU (R150 to R163) -/

theorem test_ldImm_V_ALU_1 : after vec 0x6AFF (fun t => t.reg 0xA == 0xFF) = true := by decide

theorem test_addImm_V_ALU_2 : after ((vec.setReg 5 0xFF).setReg 0xF 7) 0x7501
    (fun t => t.reg 5 == 0 && t.reg 0xF == 7) = true := by decide

theorem test_ldReg_V_ALU_4 : after (vec.setReg 2 0x99) 0x8120 (fun t => t.reg 1 == 0x99) = true := by decide

theorem test_orReg_V_ALU_5 : after (((vec.setReg 1 0x0F).setReg 2 0xF0).setReg 0xF 7) 0x8121
    (fun t => t.reg 1 == 0xFF && t.reg 0xF == 7) = true := by decide

theorem test_andReg_V_ALU_6 : after ((vec.setReg 1 0x3C).setReg 2 0x0F) 0x8122 (fun t => t.reg 1 == 0x0C) = true := by decide

theorem test_xorReg_V_ALU_7 : after (vec.setReg 1 0x3C) 0x8113 (fun t => t.reg 1 == 0) = true := by decide

theorem test_addReg_E2 : after ((vec.setReg 1 250).setReg 2 10) 0x8124
    (fun t => t.reg 1 == 4 && t.reg 0xF == 1) = true := by decide

theorem test_addReg_V_VF_1 : after ((vec.setReg 0xF 0x80).setReg 1 0x90) 0x8F14 (fun t => t.reg 0xF == 0x10) = true := by decide

theorem test_subReg_E4a : after ((vec.setReg 1 5).setReg 2 10) 0x8125
    (fun t => t.reg 1 == 251 && t.reg 0xF == 0) = true := by decide

theorem test_subReg_V_VF_3 : after ((vec.setReg 0xF 9).setReg 1 4) 0x8F15 (fun t => t.reg 0xF == 0xFD) = true ∧
    after ((vecLatched.setReg 0xF 9).setReg 1 4) 0x8F15 (fun t => t.reg 0xF == 5) = true := by decide

theorem test_shr_V_ALU_17 : after ((vecQuirks.setReg 1 0).setReg 2 5) 0x8126
    (fun t => t.reg 1 == 2 && t.reg 0xF == 1 && t.reg 2 == 5) = true := by decide

theorem test_shr_V_VF_8 : after (vec.setReg 0xF 3) 0x8F06 (fun t => t.reg 0xF == 0) = true ∧
    after (vecLatched.setReg 0xF 3) 0x8F06 (fun t => t.reg 0xF == 1) = true := by decide

theorem test_subn_V_ALU_13 : after ((vec.setReg 1 10).setReg 2 5) 0x8127
    (fun t => t.reg 1 == 251 && t.reg 0xF == 0) = true := by decide

theorem test_subn_V_VF_7 : after ((vec.setReg 1 2).setReg 0xF 9) 0x81F7 (fun t => t.reg 1 == 0xFF && t.reg 0xF == 1) = true ∧
    after ((vecLatched.setReg 1 2).setReg 0xF 9) 0x81F7 (fun t => t.reg 1 == 7 && t.reg 0xF == 1) = true := by decide

theorem test_shl_V_ALU_18 : after (vec.setReg 1 0x81) 0x812E (fun t => t.reg 1 == 2 && t.reg 0xF == 1) = true := by decide

theorem test_shl_V_VF_11 : after ((vecQuirks.setReg 0xF 0x40).setReg 2 0x85) 0x8F2E (fun t => t.reg 0xF == 2) = true := by decide

theorem test_rnd_V_ALU_21 : after vec 0xC30F (fun t => t.reg 3 == 5) = true := by decide

/-! ### Index register and memory (R180 to R186) -/

theorem test_ldI_V_IDX_1 : after vec 0xAFFF (fun t => t.index == 0x0FFF) = true := by decide

theorem test_addI_V_IDX_4 : after ({ vec with index := 0x0FFF }.setReg 2 0xFF) 0xF21E (fun t => t.index == 0x00FE) = true := by decide

theorem test_ldF_V_IDX_7 : after (vec.setReg 4 0x1A) 0xF429 (fun t => t.index == 0x0032) = true := by decide

theorem test_ldB_V_IDX_9 : after ({ vec with index := 0x300 }.setReg 5 156) 0xF533
    (fun t => [0x300, 0x301, 0x302].map (Memory.read t.mem) == [1, 5, 6] && t.index == 0x300) = true := by decide

theorem test_ldB_V_IDX_13 : after ({ vec with index := 0xFFE }.setReg 5 7) 0xF533
    (fun t => haltedWith .dataOutOfRange (some 0xF533) 0x200 (some 0x1000) t && Memory.read t.mem 0xFFF == 0) = true := by decide

theorem test_ldMemVx_V_IDX_15 : after { vec with index := 0xFF1 } 0xFF55
    (fun t => haltedWith .dataOutOfRange (some 0xFF55) 0x200 (some 0x1000) t) = true := by decide

/-- R184's example, LDST_INCREMENTS_I = 1. -/
theorem test_ldMemVx_R184 : after ((({ vecQuirks with index := 0x300 }.setReg 0 1).setReg 1 2).setReg 2 3) 0xF255
    (fun t => [0x300, 0x301, 0x302, 0x303].map (Memory.read t.mem) == [1, 2, 3, 0] && t.index == 0x303) = true := by decide

/-- P2: V0, V1, V2 from Mem[0x300..0x302]. -/
theorem test_ldVxMem_R185 : after { vec with index := 0x300, mem := [(0x300, 1), (0x301, 5), (0x302, 6), (0x303, 9)] } 0xF265
    (fun t => [0, 1, 2, 3].map (State.reg t) == [1, 5, 6, 0] && t.index == 0x300) = true := by decide

theorem test_ldVxMem_V_IDX_16 : after { vec with index := 0x1000 } 0xF065
    (fun t => haltedWith .dataOutOfRange (some 0xF065) 0x200 (some 0x1000) t && t.reg 0 == 0) = true := by decide

/-! ### Display (R200 to R202) -/

/-- The cells that are on. -/
def lit (t : State) : List (Nat × Nat) :=
  (List.range t.cfg.displayH).flatMap fun py =>
    ((List.range t.cfg.displayW).filter fun px => Display.get t.disp px py).map fun px => (px, py)

theorem test_cls_E6 : after { vec with disp := Display.put (Display.put vec.disp 0 0 true) 63 31 true } 0x00E0
    (fun t => t.disp == blankDisplay 64 32 && t.dirty && t.pc == 0x202) = true := by decide +kernel

theorem test_drw_V_DSP_1 : after (({ vec with index := 0x300, mem := [(0x300, 0x81)] }.setReg 0 67).setReg 1 33) 0xD011
    (fun t => lit t == [(3, 1), (10, 1)] && t.reg 0xF == 0 && t.dirty) = true := by decide +kernel

theorem test_drw_V_DSP_3 : after
    (({ vec with index := 0x300, mem := [(0x300, 0x80), (0x301, 0x80), (0x302, 0x80)] }.setReg 0 0).setReg 1 30) 0xD013
    (fun t => lit t == [(0, 30), (0, 31)]) = true := by decide +kernel

theorem test_drw_V_DSP_5 : after { vec with index := 0x300, mem := [(0x300, 0x80)], disp := Display.put vec.disp 0 0 true } 0xD011
    (fun t => lit t == [] && t.reg 0xF == 1) = true := by decide +kernel

theorem test_drw_V_DSP_9 : after { vec with index := 0xFFF } 0xD012
    (fun t => haltedWith .dataOutOfRange (some 0xD012) 0x200 (some 0x1000) t && !t.dirty) = true := by decide +kernel

/-! ### Keys and timers (R220 to R226, R251) -/

theorem test_skp_V_KEY_1 : after ((vec (keysDown [5])).setReg 1 5) 0xE19E (fun t => t.pc == 0x204) = true := by decide

theorem test_skp_V_KEY_5 : after (vec.setReg 1 0x10) 0xE19E
    (fun t => haltedWith .keyIndexOutOfRange (some 0xE19E) 0x200 (some 0x10) t && t.pc == 0x202) = true := by decide

theorem test_sknp_V_KEY_3 : after (vec.setReg 1 5) 0xE1A1 (fun t => t.pc == 0x204) = true := by decide

theorem test_ldVxDt_V_KEY_11 : after { vec with dt := 0x3C } 0xF307 (fun t => t.reg 3 == 0x3C) = true := by decide

theorem test_ldVxK_V_KEY_8 : after (vec (keysDown [0xA, 2])) 0xF30A (fun t => t.reg 3 == 2 && t.pc == 0x202) = true := by decide

theorem test_ldVxK_E10 : after vec 0xF30A (fun t => t.pc == 0x200 && t.reg 3 == 0) = true := by decide

theorem test_ldDtVx_V_KEY_12 : after (vec.setReg 3 0x3C) 0xF315 (fun t => t.dt == 0x3C) = true := by decide

theorem test_ldStVx_V_KEY_13 : after (vec.setReg 3 5) 0xF318 (fun t => t.st == 5) = true := by decide

theorem test_tick_V_TMR_2 : (tick (tick { vec with dt := 1, st := 1 })).dt = 0 ∧ (tick { vec with dt := 1, st := 1 }).st = 0 := by
  decide

/-- Ticks before a step fall before it reads DT (R252). -/
theorem test_ticks_before_step : after { vec with dt := 5, inputs := [{ ticks := 2, keys := noKeys, rnd := 0 }] } 0xF307
    (fun t => t.reg 3 == 3) = true := by decide

/-! ### Ports (R40, R76, R77) -/

theorem test_halted_V_SEQ_5 :
    (match step { vec with halt := true } with | .fault (.halted none) => true | _ => false) = true := by decide

theorem test_load_V_LD_2 : (loadProgram (List.replicate 3585 0) vec).2 = .loadError := by decide +kernel

theorem test_load_V_LD_4 : (loadFont (List.replicate 513 0) vec).2 = .loadError := by decide +kernel

theorem test_loadProgram_bytes : [0x200, 0x201].map (Memory.read (loadProgram [0x60, 0x07] vec).1.mem) = [0x60, 0x07] := by decide

/-! ### Reset (R42) and the first step of every kind of row from it -/

theorem test_reset_pc : State.reset.pc = 0x200#16 ∧ State.reset.sp = 0 ∧ State.reset.halt = false := by decide

/-- One word of each of the 35 rows. -/
def rowWords : List Nat :=
  [0x0100, 0x00E0, 0x00EE, 0x1234, 0x2300, 0x3342, 0x4342, 0x5120, 0x6A2F, 0x71FF, 0x8120, 0x8121] ++
  [0x8122, 0x8123, 0x8124, 0x8125, 0x8126, 0x8127, 0x812E, 0x9120, 0xA2F0, 0xB300, 0xC30F, 0xD01F] ++
  [0xE19E, 0xE1A1, 0xF307, 0xF30A, 0xF315, 0xF318, 0xF21E, 0xF429, 0xF533, 0xFF55, 0xFF65]

/-- A word of every row runs as the first instruction after reset, with free inputs and free toggles. -/
theorem test_every_row_runs : rowWords.length = 35 ∧ ∀ w ∈ rowWords, after State.reset w (fun _ => true) = true := by decide

/-- With free inputs and free toggles a placed word still runs: CLS, and a shift whose toggle is open. -/
theorem test_reset_runs : after State.reset 0x00E0 (fun t => t.pc == 0x202) = true ∧
    after State.reset 0x8126 (fun t => t.pc == 0x202) = true := by decide

/-! ### Witnesses: for each statement with hypotheses, a state and operands that meet them, at the bounds of its clauses -/

/-- `vec` with a word at pc, ready to step. -/
theorem witness_StepExecutesTheDecodedInstruction :
    (vec.withFetchWord 16 0x7501).Ready ∧ (vec.withFetchWord 16 0x7501).pc.toNat ≤ 4094 ∧
      (vec.withFetchWord 16 0x7501).decodedAtPc = .instr (.addImm 0x5#4 0x01#8) :=
  ⟨⟨by decide, by decide, by decide⟩, by decide, by decide⟩

/-- The last word of memory, address 4094, can be fetched. -/
theorem witness_StepExecutesTheDecodedInstruction_top :
    let s := { vec with pc := 0x0FFE }.withFetchWord 16 0x00E0
    s.Ready ∧ s.pc.toNat = 4094 ∧ s.decodedAtPc = .instr .cls :=
  ⟨⟨by decide, by decide, by decide⟩, by decide, by decide⟩

theorem witness_DecodeOfEncodeIsTheInstruction : (Instr.drw 0xF#4 0xF#4 0xF#4).wf = true ∧ (Instr.sys 0xFFF#12).wf = true := by
  decide

theorem witness_EncodeOfDecodeIsTheWord : decode 0xFF65#16 = .instr (.ldVxMem 0xF#4) := by decide

theorem witness_FetchPastMemoryHaltsWithoutAdvancing :
    (State.Ready { vec with pc := 0x0FFF } ∧ 4094 < (0x0FFF#16).toNat) ∧
      (State.Ready { vec with pc := 0x10FE } ∧ 4095 < (0x10FE#16).toNat) :=
  ⟨⟨⟨by decide, by decide, by decide⟩, by decide⟩, ⟨by decide, by decide, by decide⟩, by decide⟩

/-- Under both policies. -/
theorem witness_UnknownWordFollowsThePolicy :
    (vec.Ready ∧ vec.cfg.unknownPolicy = .halt ∧ vec.decodedAtPc = .unknown 0x0000#16) ∧
      (let s := vec (cfg := { Config.default with unknownPolicy := .continue })
       s.Ready ∧ s.cfg.unknownPolicy = .continue ∧ s.decodedAtPc = .unknown 0x0000#16) :=
  ⟨⟨⟨by decide, by decide, by decide⟩, rfl, by decide⟩, ⟨by decide, by decide, by decide⟩, rfl, by decide⟩

/-- A record, and the halted state that holds it. -/
def record : FaultRecord := { code := .stackUnderflow, word := some 0x00EE, pc := 0x200, addr := none }

def haltedState : State := { vec with halt := true, fault := some record }

theorem witness_HaltedEngineTakesNoStep :
    legalConfig haltedState.cfg = true ∧ haltedState.halt = true ∧ haltedState.fault = some record := by decide

theorem witness_OnlyResetLeavesHalt : haltedState.halt = true ∧ PortCall.tick ≠ .reset ∧
    PortCall.loadFont [] ≠ .reset ∧ PortCall.loadProgram [] ≠ .reset ∧ PortCall.step noKeys 0 ≠ .reset := by decide

/-- A step from `s` of the word `w` ends in a next state that is halted with a record of this code. -/
def haltsWithCode (s : State) (w : Nat) (c : FaultCode) : Bool :=
  after s w fun t => t.halt && (t.fault.map (·.code)) == some c

theorem after_next {s : State} {w : Nat} {p : State → Bool} (h : after s w p = true) :
    ∃ t, step (s.withFetchWord 16 w) = .next t ∧ p t = true := by
  unfold after at h
  split at h
  · exact ⟨_, by assumption, h⟩
  · cases h
  · cases h

/-- Every code of R240 a step can end with. -/
theorem witness_FaultsArePrecise :
    haltsWithCode vec 0x0000 .unknownInstruction = true ∧ haltsWithCode vec 0x00EE .stackUnderflow = true ∧
      haltsWithCode { vec with stack := List.replicate 16 0x0202 } 0x2300 .stackOverflow = true ∧
      haltsWithCode { vec with pc := 0x0FFF } 0 .fetchOutOfRange = true ∧
      haltsWithCode { vec with index := 0x0FFE } 0xF533 .dataOutOfRange = true ∧
      haltsWithCode (vec.setReg 1 0x10) 0xE19E .keyIndexOutOfRange = true := by decide

theorem witness_FaultRecordNamesTheInstruction :
    ∃ t r, step (vec.withFetchWord 16 0x00EE) = .next t ∧ t.halt = true ∧ t.fault = some r := by
  obtain ⟨t, h, p⟩ := after_next test_ret_V_CTL_5
  simp only [haltedWith, Bool.and_eq_true, beq_iff_eq] at p
  exact ⟨t, _, h, p.1.1, p.1.2⟩

/-- A step that sets dirty, one that clears it. -/
theorem witness_DirtyIsSetByClsAndDrwOnly :
    (∃ t, step ({ vec with dirty := true }.withFetchWord 16 0x6000) = .next t ∧ t.dirty = false) ∧
      (∃ t, step (State.withFetchWord { vec with disp := Display.put (Display.put vec.disp 0 0 true) 63 31 true } 16 0x00E0) =
        .next t ∧ t.dirty = true) := by
  obtain ⟨t, h, p⟩ := after_next test_dirty_V_SEQ_6
  obtain ⟨u, h', p'⟩ := after_next test_cls_E6
  simp only [Bool.and_eq_true, Bool.not_eq_true'] at p p'
  exact ⟨⟨t, h, p.1⟩, u, h', p'.1.2⟩

theorem witness_OnlyCallAndRetChangeTheStack :
    (∃ t, exec (.call 0x300#12) vec = .next t ∧ t.stack ≠ vec.stack) ∧
      (∃ t, exec .ret { vec with stack := [0x0202] } = .next t ∧ t.stack ≠ [0x0202]) :=
  ⟨⟨_, rfl, by decide⟩, _, rfl, by decide⟩

theorem witness_OnlyFx33AndFx55WriteMemory :
    (∃ t, exec (.ldVxMem 0xF#4) vec = .next t) ∧ (∀ x, Instr.ldVxMem 0xF#4 ≠ .ldB x) ∧
      (∀ x, Instr.ldVxMem 0xF#4 ≠ .ldMemVx x) := ⟨⟨_, rfl⟩, by simp, by simp⟩

theorem witness_OnlyClsAndDrwChangeTheDisplay :
    (∃ t, exec (.ldImm 0x1#4 0x02#8) vec = .next t) ∧ Instr.ldImm 0x1#4 0x02#8 ≠ .cls ∧
      (∀ x y n, Instr.ldImm 0x1#4 0x02#8 ≠ .drw x y n) := ⟨⟨_, rfl⟩, by simp, by simp⟩

theorem witness_NoInstructionCountsTheTimers :
    (∃ t, exec (.ldDtVx 0x1#4) (vec.setReg 1 5) = .next t ∧ t.dt ≠ vec.dt) ∧
      (∃ t, exec (.ldStVx 0x1#4) (vec.setReg 1 5) = .next t ∧ t.st ≠ vec.st) := ⟨⟨_, rfl, by decide⟩, _, rfl, by decide⟩

/-- One instruction of each of the four cases. -/
theorem witness_IndexIsWrittenOnlyByItsInstructions :
    (∃ t, exec (.ldI 0x300#12) vec = .next t ∧ t.index ≠ vec.index) ∧
      (∃ t, exec (.addI 0x1#4) (vec.setReg 1 5) = .next t ∧ t.index ≠ vec.index) ∧
      (∃ t, exec (.ldF 0x1#4) (vec.setReg 1 5) = .next t ∧ t.index ≠ vec.index) ∧
      (∃ t, exec (.ldMemVx 0x1#4) vecQuirks = .next t ∧ t.index ≠ vecQuirks.index) :=
  ⟨⟨_, rfl, by decide⟩, ⟨_, rfl, by decide⟩, ⟨_, rfl, by decide⟩, _, rfl, by decide⟩

/-- A register no rule names, and VF of an instruction that writes no flag. -/
theorem witness_RegistersAreWrittenOnlyByTheirRules :
    (∃ t, exec (.addReg 0x1#4 0x2#4) vec = .next t) ∧ (Instr.addReg 0x1#4 0x2#4).writesReg 0x2#4 = false ∧ 0x2#4 ≠ VF ∧
      (∃ t, exec (.addImm 0x1#4 0x02#8) vec = .next t) ∧ (Instr.addImm 0x1#4 0x02#8).writesReg VF = false ∧
      (Instr.addImm 0x1#4 0x02#8).writesFlag = false := ⟨⟨_, rfl⟩, by decide, by decide, ⟨_, rfl⟩, by decide, by decide⟩

theorem witness_InputsAreReadOnlyByTheirInstructions :
    (∃ t, exec (.skp 0x1#4) vec = .next t) ∧ (∀ x nn, Instr.skp 0x1#4 ≠ .rnd x nn) ∧
      (∃ t, exec (.rnd 0x1#4 0xFF#8) vec = .next t) ∧ (∀ x, Instr.rnd 0x1#4 0xFF#8 ≠ .skp x) ∧
      (∀ x, Instr.rnd 0x1#4 0xFF#8 ≠ .sknp x) ∧ (∀ x, Instr.rnd 0x1#4 0xFF#8 ≠ .ldVxK x) :=
  ⟨⟨_, rfl⟩, by simp, ⟨_, rfl⟩, by simp, by simp, by simp⟩

theorem witness_SoundTimerIsSetByFx18AndReadByNone : ∃ t, exec (.ldVxDt 0x1#4) { vec with st := 7 } = .next t := ⟨_, rfl⟩

/-- One entry short of STACK_DEPTH, and STACK_DEPTH entries. -/
theorem witness_CallPushesOrOverflows :
    State.sp { vec with stack := List.replicate 15 0x0202 } ≠ vec.cfg.stackDepth ∧
      State.sp { vec with stack := List.replicate 16 0x0202 } = vec.cfg.stackDepth := by decide

theorem witness_ReturnPopsOrUnderflows :
    (State.stack { vec with stack := [0x0202, 0x0204] } = 0x0202 :: [0x0204]) ∧ vec.sp = 0 := by decide

/-- Both orders, with VF as neither, the first, the second operand. -/
theorem witness_flags : vec.cfg.aluVfOrder = .sequential ∧ vecLatched.cfg.aluVfOrder = .latched ∧ vec.cfg.shiftUsesVy = false ∧
    vecQuirks.cfg.shiftUsesVy = true ∧ 0x1#4 ≠ VF := by decide

theorem witness_OrdersAgreeAwayFromVf : 0x0#4 ≠ VF ∧ 0xE#4 ≠ VF ∧
    Instr.shl 0x0#4 0xE#4 ∈ [Instr.subReg 0x0#4 0xE#4, .shr 0x0#4 0xE#4, .subn 0x0#4 0xE#4, .shl 0x0#4 0xE#4] := by decide

/-- I = 4093 is the last in range, I = 4094 the first out of range. -/
theorem witness_DecimalDigitsAreStored : Memory.wf vec.mem = true ∧
    State.index { vec with index := 0x0FFD } + 2 = 0x0FFF ∧ (0x0FFD#16).toNat + 2 ≤ 4095 ∧ 4095 < (0x0FFE#16).toNat + 2 := by
  decide

/-- x = 0 at I = 4095 and at 4096, x = 15 at I = 4080 and at 4081: the bounds of Fx55 and Fx65. -/
theorem witness_RegistersAreStored : Memory.wf vec.mem = true ∧
    (0x0FFF#16).toNat + (0x0#4).toNat ≤ 4095 ∧ 4095 < (0x1000#16).toNat + (0x0#4).toNat ∧
    (0x0FF0#16).toNat + (0xF#4).toNat ≤ 4095 ∧ 4095 < (0x0FF1#16).toNat + (0xF#4).toNat := by decide

theorem witness_RegistersAreLoaded :
    (State.index { vec with index := 0x0FF0 }).toNat + (0xF#4).toNat ≤ 4095 ∧
      4095 < (State.index { vec with index := 0x0FF1 }).toNat + (0xF#4).toNat := by decide

/-- A store of V0 to V2, then any state with its memory and I. -/
theorem witness_StoreThenLoadRestoresTheRegisters :
    ∃ t u : State, Memory.wf vec.mem = true ∧ vec.index.toNat + (0x2#4).toNat ≤ 4095 ∧ exec (.ldMemVx 0x2#4) vec = .next t ∧
      u.mem = t.mem ∧ u.index = vec.index := ⟨_, _, rfl, by decide, rfl, rfl, rfl⟩

theorem witness_StoredBytesAreFetchedNext :
    ∃ t u : State, exec (.ldMemVx 0x2#4) vec = .next t ∧ (0x1#4).toNat < (0x2#4).toNat ∧ u = { t with pc := vec.index + 1 } ∧
      u.mem = t.mem ∧ u.pc.toNat = vec.index.toNat + (0x1#4).toNat := ⟨_, _, rfl, by decide, rfl, rfl, by decide⟩

/-- A sprite that is wholly on the display, one clipped at the corner, and none of them read above 4095. -/
theorem witness_DrawComplementsTheSpritesCells :
    1 ≤ vec.cfg.displayW ∧ 1 ≤ vec.cfg.displayH ∧ Display.hasShape vec.cfg.displayW vec.cfg.displayH vec.disp = true ∧
      vec.spriteInRange 0x1#4 0xF#4 ∧ State.spriteInRange ({ vec with index := 0x0FFF }.setReg 1 31) 0x1#4 0xF#4 ∧
      State.spriteInRange { vec with index := 0x1000 } 0x1#4 0x0#4 :=
  ⟨by decide, by decide, by decide, .inr (by decide), .inr (by decide), .inl (by decide)⟩

/-- Row 1 of a sprite at 4095, row 0 of a sprite at 4096. -/
theorem witness_DrawOutOfRangeFaults :
    ¬ State.spriteInRange { vec with index := 0x0FFF } 0x1#4 0x2#4 ∧ ¬ State.spriteInRange { vec with index := 0x1000 } 0x1#4 0x1#4 :=
  ⟨not_or.2 ⟨by decide, by decide⟩, not_or.2 ⟨by decide, by decide⟩⟩

/-- E7: the first draw meets no lit cell (VF = 0) and turns four cells on, the second turns them off with VF = 1. -/
theorem witness_DrawTwiceRestoresTheDisplay_E7 :
    (match exec (.drw 0x0#4 0x1#4 0x1#4) { vec with index := 0x300, mem := [(0x300, 0xF0)] } with
      | .next t => t.reg 0xF == 0 && lit t == [(0, 0), (1, 0), (2, 0), (3, 0)] &&
          after t 0xD011 (fun u => lit u == [] && u.reg 0xF == 1)
      | _ => false) = true := by decide +kernel

/-- What one draw leaves is a state the second draw may start from. -/
theorem witness_DrawTwiceRestoresTheDisplay :
    ∃ t u, vec.spriteInRange 0x1#4 0x1#4 ∧ exec (.drw 0x0#4 0x1#4 0x1#4) vec = .next t ∧ u = { vec with disp := t.disp } ∧
      u.cfg = vec.cfg ∧ u.disp = t.disp ∧ u.mem = vec.mem ∧ u.index = vec.index ∧ u.reg 0x0#4 = vec.reg 0x0#4 ∧
      u.reg 0x1#4 = vec.reg 0x1#4 := ⟨_, _, .inr (by decide), rfl, rfl, rfl, rfl, rfl, rfl, rfl, rfl⟩

/-- R202(b) says the second of two draws sets VF exactly when the first changed a cell. By R201, and by R202(a) with R202(c), it
does not over a lit cell: the first draw turns it off (VF = 1), the second turns it on, so no cell goes from 1 to 0 (VF = 0)
(log 23). -/
theorem test_drawTwice_over_a_lit_cell :
    (match exec (.drw 0x0#4 0x1#4 0x1#4)
        { vec with index := 0x300, mem := [(0x300, 0x80)], disp := Display.put vec.disp 0 0 true } with
      | .next t => t.reg 0xF == 1 && after t 0xD011 (fun u => Display.get u.disp 0 0 && u.reg 0xF == 0)
      | _ => false) = true := by decide +kernel

/-- The spec's own sentences, apart from any model, on one drawn 1-bit over a lit cell: `c0`, `c1`, `c2` is the cell before, between
and after two draws, `vf` the flag of the second. R202(a) and R202(c) leave no flag that meets R202(b), nor one that meets R201's
last corner case (log 23). -/
theorem test_drawTwice_sentences_contradict (c0 c1 c2 vf : Bool) (lit : c0 = true) (a1 : c1 = !c0) (a2 : c2 = !c1)
    (c : vf = true ↔ c1 = true ∧ c2 = false) : ¬ (vf = true ↔ c1 ≠ c0) ∧ ¬ vf = true := by
  subst lit a1 a2
  simp_all

/-- Key 15 is the last of the snapshot, 16 is outside it. -/
theorem witness_SkipsOnKeys : ((vec.setReg 1 15).reg 0x1#4).toNat < vec.cfg.keyCount ∧
    vec.cfg.keyCount ≤ ((vec.setReg 1 16).reg 0x1#4).toNat := by decide

/-- The first key of the order, the last of it, and none pressed. -/
theorem witness_KeyWait :
    ((keysDown [0]).getD 0 false = true ∧ vec.cfg.keyScanOrder = [] ++ 0 :: (List.range' 1 15)) ∧
      ((keysDown [15]).getD 15 false = true ∧ vec.cfg.keyScanOrder = List.range 15 ++ 15 :: [] ∧
        ∀ j ∈ List.range 15, (keysDown [15]).getD j false = false) ∧
      (∀ k ∈ vec.cfg.keyScanOrder, noKeys.getD k false = false) := by decide

theorem witness_KeyWaitRepeatsTheInstruction :
    let s := vec.withFetchWord 16 0xF30A
    s.Ready ∧ s.pc.toNat ≤ 4094 ∧ s.decodedAtPc = .instr (.ldVxK 0x3#4) ∧
      ∀ k ∈ s.cfg.keyScanOrder, s.nextInput.keys.getD k false = false :=
  ⟨⟨by decide, by decide, by decide⟩, by decide, by decide, by decide⟩

/-- Images of the largest size and one byte longer, for both loaders. -/
theorem witness_LoadersCopyOrRefuse : Memory.wf vec.mem = true ∧
    (List.replicate 512 0x01#8).length ≤ 512 ∧ 512 < (List.replicate 513 0x01#8).length ∧
    (List.replicate 3584 0x01#8).length ≤ 3584 ∧ 3584 < (List.replicate 3585 0x01#8).length := by
  simp only [List.length_replicate]
  decide

theorem witness_LoadOrderDoesNotMatter : Memory.wf vec.mem = true ∧ [0xF0#8].length ≤ 512 ∧ [0x12#8, 0x00#8].length ≤ 3584 := by
  decide

/-- The invariants hold of a state a step goes on from. -/
theorem witness_EveryStepKeepsTheShape :
    (vec.withFetchWord 16 0x2300).Inv ∧ (vec.withFetchWord 16 0x2300).AddressBounds ∧
      ∃ t, step (vec.withFetchWord 16 0x2300) = .next t := by
  refine ⟨⟨by decide, by decide, by decide, by decide, by decide, by decide⟩, ⟨by decide, by decide, fun _ h => absurd h (List.not_mem_nil)⟩, ?_⟩
  obtain ⟨t, h, -⟩ := after_next (s := vec) (w := 0x2300) (p := fun _ => true) (by decide)
  exact ⟨t, h⟩

/-- pc, I and a saved pc at their largest. -/
theorem witness_EveryStepKeepsTheAddressBounds :
    let s := State.withFetchWord { vec with pc := 0x10FE, index := 0x1000, stack := [0x1000] } 16 0
    s.AddressBounds ∧ ∃ t, step s = .next t := by
  refine ⟨⟨by decide, by decide, fun e h => ?_⟩, ?_⟩
  · obtain rfl := List.mem_singleton.1 h
    decide
  obtain ⟨t, h, -⟩ := after_next (s := { vec with pc := 0x10FE, index := 0x1000, stack := [0x1000] }) (w := 0)
    (p := fun _ => true) (by decide)
  exact ⟨t, h⟩

theorem witness_EveryPortCallKeepsTheShape : vec.Inv :=
  ⟨by decide, by decide, by decide, by decide, by decide, by decide⟩

end Sys2Proof.Tests
end

section
/-!
SUPPORT. The frame of every instruction (R125), and who writes the stack, I, the display and the timers.
-/

namespace Sys2Proof
open Machine

/-- The elements of the state the rule of an instruction may write when it raises nothing (R125). -/
def Instr.mayWrite : Instr → List Part
  | .sys _ => []
  | .cls => [.disp, .dirty]
  | .ret | .call _ => [.pc, .stack]
  | .jp _ | .jpV0 _ | .seImm _ _ | .sneImm _ _ | .seReg _ _ | .sneReg _ _ | .skp _ | .sknp _ => [.pc]
  | .ldImm _ _ | .addImm _ _ | .ldReg _ _ | .orReg _ _ | .andReg _ _ | .xorReg _ _ | .addReg _ _ | .subReg _ _ | .shr _ _
  | .subn _ _ | .shl _ _ | .rnd _ _ | .ldVxDt _ => [.regs]
  | .ldI _ | .addI _ | .ldF _ => [.index]
  | .drw _ _ _ => [.regs, .disp, .dirty]
  | .ldVxK _ => [.regs, .pc]
  | .ldDtVx _ => [.dt]
  | .ldStVx _ => [.st]
  | .ldB _ => [.mem]
  | .ldMemVx _ => [.mem, .index]
  | .ldVxMem _ => [.regs, .index]
end Sys2Proof

namespace Sys2Proof.Machine

/-! ### Reading a frame -/

section
variable {ps : List Part} {s t : State}

theorem sameBut.index (h : sameBut ps s t) (hp : Part.index ∉ ps) : t.index = s.index := by
  obtain ⟨-, h, -⟩ := h
  exact h.resolve_left hp

theorem sameBut.pc (h : sameBut ps s t) (hp : Part.pc ∉ ps) : t.pc = s.pc := by
  obtain ⟨-, -, h, -⟩ := h
  exact h.resolve_left hp

theorem sameBut.dt (h : sameBut ps s t) (hp : Part.dt ∉ ps) : t.dt = s.dt := by
  obtain ⟨-, -, -, h, -⟩ := h
  exact h.resolve_left hp

theorem sameBut.st (h : sameBut ps s t) (hp : Part.st ∉ ps) : t.st = s.st := by
  obtain ⟨-, -, -, -, h, -⟩ := h
  exact h.resolve_left hp

theorem sameBut.stack (h : sameBut ps s t) (hp : Part.stack ∉ ps) : t.stack = s.stack := by
  obtain ⟨-, -, -, -, -, h, -⟩ := h
  exact h.resolve_left hp

theorem sameBut.disp (h : sameBut ps s t) (hp : Part.disp ∉ ps) : t.disp = s.disp := by
  obtain ⟨-, -, -, -, -, -, h, -⟩ := h
  exact h.resolve_left hp

theorem sameBut.dirty (h : sameBut ps s t) (hp : Part.dirty ∉ ps) : t.dirty = s.dirty := by
  obtain ⟨-, -, -, -, -, -, -, h, -⟩ := h
  exact h.resolve_left hp

theorem sameBut.latch (h : sameBut ps s t) (hp : Part.latch ∉ ps) :
    t.halt = s.halt ∧ t.fault = s.fault ∧ t.reply = s.reply := by
  obtain ⟨-, -, -, -, -, -, -, -, h, -⟩ := h
  exact h.resolve_left hp

theorem sameBut.cfg (h : sameBut ps s t) : t.cfg = s.cfg := by
  obtain ⟨-, -, -, -, -, -, -, -, -, -, h, -⟩ := h
  exact h

theorem sameBut.keys (h : sameBut ps s t) : t.keys = s.keys := by
  obtain ⟨-, -, -, -, -, -, -, -, -, -, -, h, -⟩ := h
  exact h

theorem sameBut.rnd (h : sameBut ps s t) : t.rnd = s.rnd := by
  obtain ⟨-, -, -, -, -, -, -, -, -, -, -, -, h, -⟩ := h
  exact h

end

/-! ### The frame of every instruction (R125) -/

/-- Memory stays as data, not only byte by byte, where `i` writes none. -/
theorem Wrote.frame {i : Instr} {s t : State} (h : Wrote s t i) :
    sameBut i.mayWrite s t ∧ (Part.mem ∈ i.mayWrite ∨ t.mem = s.mem) := by
  cases i
  case ret =>
    obtain ⟨top, rest, -, rfl⟩ := h
    simp [sameBut, Instr.mayWrite, State.reg]
  case call | ldB | ldMemVx | ldVxMem =>
    obtain ⟨-, rfl⟩ := h
    simp [sameBut, Instr.mayWrite, State.reg]
  case drw =>
    obtain ⟨-, b, rfl⟩ := h
    simp [sameBut, Instr.mayWrite]
  case ldVxK =>
    obtain rfl | ⟨b, rfl⟩ := h <;> simp [sameBut, Instr.mayWrite]
  case sys | cls | jp | jpV0 | ldI | addI | ldF | ldDtVx | ldStVx =>
    cases h
    simp [sameBut, Instr.mayWrite, State.reg]
  case seImm | sneImm | seReg | sneReg | skp | sknp | ldImm | addImm | ldReg | orReg | andReg | xorReg | rnd | ldVxDt =>
    obtain ⟨c, rfl⟩ := h
    simp [sameBut, Instr.mayWrite]
  case addReg | subReg | shr | subn | shl =>
    obtain ⟨f, g, rfl⟩ := h
    simp [sameBut, Instr.mayWrite]

/-- A fault of the execute stage writes the latch only (R243). -/
theorem Raised.frame {i : Instr} {s t : State} (h : Raised i s t) : sameBut [.latch] s t ∧ t.mem = s.mem := by
  obtain ⟨c, a, -, rfl, -⟩ := h
  simp [sameBut]

theorem exec_frame {i : Instr} {s t : State} (h : exec i s = .next t) :
    sameBut (.latch :: i.mayWrite) s t ∧ (Part.mem ∈ i.mayWrite ∨ t.mem = s.mem) := by
  obtain hr | hw := exec_cases h
  · obtain ⟨hs, hm⟩ := hr.frame
    exact ⟨sameBut_mono (by simp) hs, .inr hm⟩
  · obtain ⟨hs, hm⟩ := hw.frame
    exact ⟨sameBut_mono (fun _ => List.mem_cons_of_mem _) hs, hm⟩

theorem exec_sameBut {i : Instr} {s t : State} (h : exec i s = .next t) : sameBut (.latch :: i.mayWrite) s t :=
  (exec_frame h).1

/-! ### Who writes the stack (R31) -/

theorem stack_mem_mayWrite {i : Instr} : Part.stack ∈ i.mayWrite ↔ i = .ret ∨ ∃ nnn, i = .call nnn := by
  cases i <;> simp [Instr.mayWrite]

/-- What an instruction can do to the stack: nothing, a push within STACK_DEPTH, a pop. -/
theorem exec_stack_cases {i : Instr} {s t : State} (h : exec i s = .next t) :
    t.stack = s.stack ∨ (∃ nnn, i = .call nnn ∧ s.sp ≠ s.cfg.stackDepth ∧ t.stack = s.pc :: s.stack) ∨
      (i = .ret ∧ ∃ top, s.stack = top :: t.stack) := by
  obtain hr | hw := exec_cases h
  · exact .inl (hr.frame.1.stack (by simp))
  by_cases hm : Part.stack ∈ i.mayWrite
  · obtain rfl | ⟨nnn, rfl⟩ := stack_mem_mayWrite.1 hm
    · obtain ⟨top, rest, hs, rfl⟩ := hw
      exact .inr (.inr ⟨rfl, top, hs⟩)
    · obtain ⟨hsp, rfl⟩ := hw
      exact .inr (.inl ⟨nnn, rfl, hsp, rfl⟩)
  · exact .inl (hw.frame.1.stack hm)

/-! ### Who writes I (R26) -/

theorem index_mem_mayWrite {i : Instr} :
    Part.index ∈ i.mayWrite ↔ (∃ nnn, i = .ldI nnn) ∨ (∃ x, i = .addI x) ∨ (∃ x, i = .ldF x) ∨
      (∃ x, i = .ldMemVx x ∨ i = .ldVxMem x) := by
  cases i <;> simp [Instr.mayWrite]

theorem autoIncrement_index_cases (s : State) (x : RegIdx) :
    (s.autoIncrement x).index = s.index ∨
      (s.cfg.ldstIncrementsI = true ∧ (s.autoIncrement x).index = s.index + x.zeroExtend 16 + 1) := by
  rw [autoIncrement_index]
  split
  · exact .inr ⟨‹_›, rfl⟩
  · exact .inl rfl

/-- What an instruction can do to I: nothing, or the value of one of the five rules that write it. -/
theorem exec_index_cases {i : Instr} {s t : State} (h : exec i s = .next t) :
    t.index = s.index ∨ (∃ nnn, i = .ldI nnn ∧ t.index = addrWord nnn) ∨
      (∃ x, i = .addI x ∧ t.index = BitVec.ofNat 16 ((s.index.toNat + (s.reg x).toNat) % 2048)) ∨
      (∃ x, i = .ldF x ∧ t.index = byteWord (s.reg x &&& 0x0F#8) * 5#16) ∨
      (∃ x, (i = .ldMemVx x ∨ i = .ldVxMem x) ∧ s.cfg.ldstIncrementsI = true ∧
        firstOutside s.index (x.toNat + 1) = none ∧ t.index = s.index + x.zeroExtend 16 + 1) := by
  obtain hr | hw := exec_cases h
  · exact .inl (hr.frame.1.index (by simp))
  by_cases hm : Part.index ∈ i.mayWrite
  · obtain ⟨nnn, rfl⟩ | ⟨x, rfl⟩ | ⟨x, rfl⟩ | ⟨x, rfl | rfl⟩ := index_mem_mayWrite.1 hm
    · cases hw
      exact .inr (.inl ⟨nnn, rfl, rfl⟩)
    · cases hw
      exact .inr (.inr (.inl ⟨x, rfl, rfl⟩))
    · cases hw
      exact .inr (.inr (.inr (.inl ⟨x, rfl, rfl⟩)))
    · obtain ⟨hin, rfl⟩ := hw
      exact (autoIncrement_index_cases _ x).imp id fun ⟨hq, he⟩ => .inr (.inr (.inr ⟨x, .inl rfl, hq, hin, he⟩))
    · obtain ⟨hin, rfl⟩ := hw
      exact (autoIncrement_index_cases (s.loadRegs x) x).imp (by simp) fun ⟨hq, he⟩ =>
        .inr (.inr (.inr ⟨x, .inr rfl, by simpa using hq, hin, by simpa using he⟩))
  · exact .inl (hw.frame.1.index hm)

/-! ### Who writes the display and the timers (R28 to R30, R33, R34) -/

theorem disp_mem_mayWrite {i : Instr} : Part.disp ∈ i.mayWrite ↔ i = .cls ∨ ∃ x y n, i = .drw x y n := by
  cases i <;> simp [Instr.mayWrite]

theorem dirty_mem_mayWrite {i : Instr} : Part.dirty ∈ i.mayWrite ↔ i = .cls ∨ ∃ x y n, i = .drw x y n := by
  cases i <;> simp [Instr.mayWrite]

theorem dt_mem_mayWrite {i : Instr} : Part.dt ∈ i.mayWrite ↔ ∃ x, i = .ldDtVx x := by
  cases i <;> simp [Instr.mayWrite]

theorem st_mem_mayWrite {i : Instr} : Part.st ∈ i.mayWrite ↔ ∃ x, i = .ldStVx x := by
  cases i <;> simp [Instr.mayWrite]

/-! ### When an instruction sets dirty (R34) -/

theorem spriteInRange_iff {s : State} {y : RegIdx} {n : Nibble} :
    s.spriteInRange y n ↔ firstOutside s.index (s.rowsDrawn y n) = none := firstOutside_eq_none.symm

theorem spriteInRange_fetched {s : State} {y : RegIdx} {n : Nibble} :
    s.fetched.spriteInRange y n ↔ s.spriteInRange y n := by
  simp [State.spriteInRange, State.rowsDrawn, State.startY]

/-- From the dirty = 0 the fetch leaves (R121): a DRW that faults does not set it (C2). -/
theorem exec_dirty_iff {i : Instr} {s t : State} (h : exec i s = .next t) (hd : s.dirty = false) :
    t.dirty = true ↔ i = .cls ∨ ∃ x y n, i = .drw x y n ∧ s.spriteInRange y n := by
  by_cases hm : Part.dirty ∈ i.mayWrite
  · obtain rfl | ⟨x, y, n, rfl⟩ := dirty_mem_mayWrite.1 hm
    · cases h
      simp
    · obtain ⟨a, ho, rfl⟩ | ⟨ho, rfl⟩ := withData_cases h <;> simp [spriteInRange_iff, ho, hd]
  · have hs : t.dirty = s.dirty := (exec_sameBut h).dirty (by simp [hm])
    have hi := mt dirty_mem_mayWrite.2 hm
    simp only [hs, hd, Bool.false_eq_true, false_iff]
    rintro (rfl | ⟨x, y, n, rfl, -⟩) <;> simp at hi

end Sys2Proof.Machine
end

section
/-!
SUPPORT. What every step keeps: the bounds of R25 and R27, and the machine's shape, which every port call keeps too (R40).
-/

namespace Sys2Proof.Machine

/-! ### The address bounds (R25, R27) -/

/-- The range check bounds the incremented I: it is one past the last address accessed (R27). -/
theorem autoIncrement_le {i : Word} {x : RegIdx} (h : firstOutside i (x.toNat + 1) = none) :
    (i + x.zeroExtend 16 + 1).toNat ≤ 0x1000 := by
  have hle : i.toNat + x.toNat ≤ 4095 := by simpa using firstOutside_eq_none.1 h
  have hx : (x.zeroExtend 16).toNat = x.toNat := BitVec.toNat_setWidth_of_le (by decide)
  simp only [BitVec.toNat_add, hx, show (1 : Word).toNat = 1 from rfl]
  omega

theorem addrWord_le (nnn : Addr) : (addrWord nnn).toNat ≤ 0xFFF := by
  have : (addrWord nnn).toNat = nnn.toNat := BitVec.toNat_setWidth_of_le (by decide)
  omega

theorem byteWord_le (b : Byte) : (byteWord b).toNat ≤ 0xFF := by
  have : (byteWord b).toNat = b.toNat := BitVec.toNat_setWidth_of_le (by decide)
  omega

theorem exec_index_le {i : Instr} {s t : State} (h : exec i s = .next t) (hI : s.index.toNat ≤ 0x1000) :
    t.index.toNat ≤ 0x1000 := by
  obtain e | ⟨nnn, -, e⟩ | ⟨x, -, e⟩ | ⟨x, -, e⟩ | ⟨x, -, -, hin, e⟩ := exec_index_cases h <;> rw [e]
  · exact hI
  · exact (addrWord_le nnn).trans (by decide)
  · rw [BitVec.toNat_ofNat]
    omega
  · have := byteWord_le (s.reg x &&& 0x0F#8)
    calc
      (byteWord (s.reg x &&& 0x0F#8) * 5#16).toNat ≤ (byteWord (s.reg x &&& 0x0F#8)).toNat * 5 := Nat.mod_le _ _
      _ ≤ 0x1000 := by omega
  · exact autoIncrement_le hin

/-- R25: the largest pc is JP V0's 0xFFF + 0xFF; the post-fetch pc of an instruction lies between 2 and 0x1000. -/
theorem exec_pc_le {i : Instr} {s t : State} (h : exec i s = .next t) (h2 : 2 ≤ s.pc.toNat) (hpc : s.pc.toNat ≤ 0x1000)
    (hst : ∀ e ∈ s.stack, e.toNat ≤ 0x1000) : t.pc.toNat ≤ 0x10FE := by
  obtain hr | hw := exec_cases h
  · rw [hr.frame.1.pc (by simp)]
    omega
  by_cases hm : Part.pc ∈ i.mayWrite
  · cases i
    case ret =>
      obtain ⟨top, rest, hs, rfl⟩ := hw
      exact (hst top (by simp [hs])).trans (by decide)
    case call nnn =>
      obtain ⟨-, rfl⟩ := hw
      exact (addrWord_le nnn).trans (by decide)
    case jp nnn =>
      cases hw
      exact (addrWord_le nnn).trans (by decide)
    case jpV0 nnn =>
      cases hw
      have := addrWord_le nnn
      have := byteWord_le (s.reg 0x0#4)
      simp only [State.jump_pc, BitVec.toNat_add]
      omega
    case seImm | sneImm | seReg | sneReg | skp | sknp =>
      obtain ⟨c, rfl⟩ := hw
      rw [State.skipIf_pc]
      split <;> bv_omega
    case ldVxK =>
      obtain rfl | ⟨b, rfl⟩ := hw
      · show (s.pc - 2).toNat ≤ _
        bv_omega
      · show s.pc.toNat ≤ _
        omega
    all_goals simp [Instr.mayWrite] at hm
  · rw [hw.frame.1.pc hm]
    omega

theorem exec_stack_le {i : Instr} {s t : State} (h : exec i s = .next t) (hpc : s.pc.toNat ≤ 0x1000)
    (hst : ∀ e ∈ s.stack, e.toNat ≤ 0x1000) : ∀ e ∈ t.stack, e.toNat ≤ 0x1000 := by
  obtain e | ⟨nnn, -, -, e⟩ | ⟨-, top, e⟩ := exec_stack_cases h
  · rwa [e]
  · rw [e]
    exact List.forall_mem_cons.2 ⟨hpc, hst⟩
  · exact fun a ha => hst a (by simp [e, ha])

theorem step_keeps_addressBounds {s t : State} (hb : s.AddressBounds) (h : step s = .next t) : t.AddressBounds := by
  obtain ⟨hpc, hI, hst⟩ := hb
  obtain ⟨-, ⟨a, -, rfl⟩ | ⟨w, hr, -, rfl⟩ | ⟨i, hr, -, he⟩⟩ := step_cases h
  · exact ⟨by simpa using hpc, by simpa using hI, by simpa using hst⟩
  · refine ⟨?_, by simpa using hI, by simpa using hst⟩
    simp only [takeFault_pc, State.fetched_pc]
    bv_omega
  · have hlo : 2 ≤ s.fetched.pc.toNat := by
      rw [State.fetched_pc]
      bv_omega
    have hhi : s.fetched.pc.toNat ≤ 0x1000 := by
      rw [State.fetched_pc]
      bv_omega
    have hst' : ∀ e ∈ s.fetched.stack, e.toNat ≤ 0x1000 := by simpa using hst
    exact ⟨exec_pc_le he hlo hhi hst', exec_index_le he (by simpa using hI), exec_stack_le he hhi hst'⟩

/-! ### The machine's shape -/

theorem exec_keeps_mem_wf {i : Instr} {s t : State} (hs : Memory.wf s.mem = true) (h : exec i s = .next t) :
    Memory.wf t.mem = true := by
  obtain hr | hw := exec_cases h
  · rwa [hr.frame.2]
  obtain hm | hm := hw.frame.2
  · cases i
    case ldB | ldMemVx =>
      obtain ⟨-, rfl⟩ := hw
      exact Memory.writeBytes_wf _ _ hs
    all_goals simp [Instr.mayWrite] at hm
  · rwa [hm]

theorem exec_keeps_disp_shape {i : Instr} {s t : State} (hs : Display.hasShape s.cfg.displayW s.cfg.displayH s.disp = true)
    (h : exec i s = .next t) : Display.hasShape s.cfg.displayW s.cfg.displayH t.disp = true := by
  obtain hr | hw := exec_cases h
  · rwa [hr.frame.1.disp (by simp)]
  by_cases hm : Part.disp ∈ i.mayWrite
  · obtain rfl | ⟨x, y, n, rfl⟩ := disp_mem_mayWrite.1 hm
    · cases hw
      exact hasShape_blankDisplay _ _
    · obtain ⟨-, b, rfl⟩ := hw
      exact hasShape_drawRows _ _ _ _ _ hs
  · rwa [hw.frame.1.disp hm]

theorem exec_keeps_sp_le {i : Instr} {s t : State} (hs : s.sp ≤ s.cfg.stackDepth) (h : exec i s = .next t) :
    t.sp ≤ s.cfg.stackDepth := by
  unfold State.sp at *
  obtain e | ⟨nnn, -, hne, e⟩ | ⟨-, top, e⟩ := exec_stack_cases h
  · rwa [e]
  · have hne' : s.stack.length ≠ s.cfg.stackDepth := hne
    rw [e, List.length_cons]
    omega
  · rw [e, List.length_cons] at hs
    omega

theorem latch_not_mem_mayWrite (i : Instr) : Part.latch ∉ i.mayWrite := by
  cases i <;> simp [Instr.mayWrite]

theorem takeFault_keeps_halt_eq_isSome {s : State} (r : FaultRecord) (hs : s.halt = s.fault.isSome) :
    (takeFault r s).halt = (takeFault r s).fault.isSome := by
  unfold takeFault
  split
  · rfl
  · exact hs

theorem exec_keeps_halt_eq_isSome {i : Instr} {s t : State} (hs : s.halt = s.fault.isSome) (h : exec i s = .next t) :
    t.halt = t.fault.isSome := by
  obtain ⟨c, a, -, rfl, -⟩ | hw := exec_cases h
  · exact takeFault_keeps_halt_eq_isSome _ hs
  · obtain ⟨hh, hf, -⟩ := hw.frame.1.latch (latch_not_mem_mayWrite i)
    rwa [hh, hf]

theorem exec_keeps_inv {i : Instr} {s t : State} (hs : s.Inv) (h : exec i s = .next t) : t.Inv := by
  obtain ⟨hc, hm, hsp, hd, hl, hk⟩ := hs
  have hf := exec_sameBut h
  unfold State.Inv
  rw [hf.cfg, hf.keys]
  exact ⟨hc, exec_keeps_mem_wf hm h, exec_keeps_sp_le hsp h, exec_keeps_disp_shape hd h,
    exec_keeps_halt_eq_isSome hl h, hk⟩

/-- The shape speaks of the configuration, memory, stack, display, latch and snapshot only. -/
theorem inv_congr {s t : State} (hs : s.Inv) (hcfg : t.cfg = s.cfg) (hmem : t.mem = s.mem) (hstack : t.stack = s.stack)
    (hdisp : t.disp = s.disp) (hlatch : t.halt = t.fault.isSome) (hkeys : t.keys.length = s.cfg.keyCount) : t.Inv := by
  obtain ⟨hc, hm, hsp, hd, -, -⟩ := hs
  unfold State.Inv State.sp
  rw [hcfg, hmem, hstack, hdisp]
  exact ⟨hc, hm, hsp, hd, hlatch, hkeys⟩

theorem takeFault_keeps_inv {s : State} (r : FaultRecord) (hs : s.Inv) : (takeFault r s).Inv := by
  obtain ⟨-, -, -, -, hl, hk⟩ := id hs
  exact inv_congr hs (by simp) (by simp) (by simp) (by simp) (takeFault_keeps_halt_eq_isSome r hl) (by simpa using hk)

theorem accept_keeps_inv {s : State} (hs : s.Inv) (hr : s.Ready) : s.accept.Inv := by
  obtain ⟨-, -, -, -, hl, -⟩ := id hs
  obtain ⟨-, -, hk⟩ := hr
  exact inv_congr hs (by simp) (by simp) (by simp) (by simp) (by simpa using hl) (by simpa using hk)

theorem step_keeps_inv {s t : State} (hs : s.Inv) (h : step s = .next t) : t.Inv := by
  obtain ⟨hr, ⟨a, -, rfl⟩ | ⟨w, -, -, rfl⟩ | ⟨i, -, -, he⟩⟩ := step_cases h
  all_goals have ha := accept_keeps_inv hs hr
  · exact takeFault_keeps_inv _ ha
  · exact takeFault_keeps_inv _ ha
  · exact exec_keeps_inv (s := s.fetched) ha he

/-! ### The ports (R40) -/

theorem step_cfg {s t : State} (h : step s = .next t) : t.cfg = s.cfg := by
  obtain ⟨-, ⟨a, -, rfl⟩ | ⟨w, -, -, rfl⟩ | ⟨i, -, -, he⟩⟩ := step_cases h
  · simp
  · simp
  · rw [(exec_sameBut he).cfg, State.fetched_cfg]

/-- A call of the step port leaves the state alone where the step has no next state (R120). -/
theorem call_step_cases (keys : List Bool) (rnd : Byte) (s : State) :
    (call (.step keys rnd) s).1 = s ∨ stepWith keys rnd s = .next (call (.step keys rnd) s).1 := by
  simp only [call]
  split
  · exact .inr ‹_›
  all_goals exact .inl rfl

theorem call_cfg (c : PortCall) (s : State) : (call c s).1.cfg = s.cfg := by
  cases c with
  | reset => rfl
  | loadFont image =>
    simp only [call]
    obtain ⟨-, e⟩ | ⟨-, e⟩ := loadFont_cases image s <;> rw [e]
  | loadProgram image =>
    simp only [call]
    obtain ⟨-, e⟩ | ⟨-, e⟩ := loadProgram_cases image s <;> rw [e]
  | step keys rnd =>
    obtain e | e := call_step_cases keys rnd s
    · rw [e]
    · exact step_cfg (s := { s with inputs := ⟨0, keys, rnd⟩ :: s.inputs }) e
  | tick => rfl

theorem writeBytes_keeps_inv {s : State} (hs : s.Inv) (a : Nat) (bs : List Byte) :
    State.Inv { s with mem := Memory.writeBytes s.mem a bs } := by
  obtain ⟨hc, hm, hrest⟩ := hs
  exact ⟨hc, Memory.writeBytes_wf bs a hm, hrest⟩

theorem initMem_wf {c : Config} (h : legalConfig c = true) : Memory.wf c.initMem = true := by
  simp only [legalConfig, Bool.and_eq_true] at h
  exact h.2

theorem resetWith_inv {c : Config} (h : legalConfig c = true) (inputs : List StepInput) (clock : Nat) :
    (State.resetWith c inputs clock).Inv :=
  ⟨h, initMem_wf h, Nat.zero_le _, hasShape_blankDisplay _ _, rfl, List.length_replicate⟩

theorem call_keeps_inv (c : PortCall) {s : State} (hs : s.Inv) : (call c s).1.Inv := by
  cases c with
  | reset =>
    obtain ⟨hc, -⟩ := hs
    exact resetWith_inv hc _ _
  | loadFont image =>
    simp only [call]
    obtain ⟨-, e⟩ | ⟨-, e⟩ := loadFont_cases image s <;> rw [e]
    · exact hs
    · exact writeBytes_keeps_inv hs _ _
  | loadProgram image =>
    simp only [call]
    obtain ⟨-, e⟩ | ⟨-, e⟩ := loadProgram_cases image s <;> rw [e]
    · exact hs
    · exact writeBytes_keeps_inv hs _ _
  | step keys rnd =>
    obtain e | e := call_step_cases keys rnd s
    · rwa [e]
    · exact step_keeps_inv (s := { s with inputs := ⟨0, keys, rnd⟩ :: s.inputs }) hs e
  | tick => exact hs

theorem legalConfig_default : legalConfig Config.default = true := by decide

end Sys2Proof.Machine
end

section
/-!
SUPPORT. Who reads the inputs of a step (R37, R38).
-/

namespace Sys2Proof.Machine

/-- The state under other inputs of the step being run: another key snapshot and another random byte. -/
def State.withInputs (s : State) (keys : List Bool) (b : Byte) : State := { s with keys := keys, rnd := b }

theorem raiseIn_withInputs (i : Instr) (c : FaultCode) (a : Option Word) (s : State) (keys : List Bool) (b : Byte) :
    raiseIn i c a (s.withInputs keys b) = (raiseIn i c a s).withInputs keys b := by
  simp only [raiseIn, takeFault, apply_ite (State.withInputs · keys b)]
  rfl

theorem withData_withInputs {s t k : State} {i : Instr} {count : Nat} (h : s.withData i count k = .next t)
    (keys : List Bool) (b : Byte) :
    (s.withInputs keys b).withData i count (k.withInputs keys b) = .next (t.withInputs keys b) := by
  obtain ⟨a, ho, rfl⟩ | ⟨ho, rfl⟩ := withData_cases h
  · rw [← raiseIn_withInputs]
    exact withData_of_some ho
  · exact withData_of_none ho

/-- The snapshot stays: only the random byte may differ. -/
theorem withKey_withInputs {s t : State} {i : Instr} {x : RegIdx} {k : Bool → State} (h : s.withKey i x k = .next t)
    (b : Byte) :
    (s.withInputs s.keys b).withKey i x (fun down => (k down).withInputs s.keys b) = .next (t.withInputs s.keys b) := by
  obtain ⟨ho, rfl⟩ | ⟨ho, rfl⟩ := withKey_cases h
  · rw [← raiseIn_withInputs]
    exact if_pos ho
  · exact if_neg ho.not_ge

/-- Whichever state ALU_VF_ORDER reads the operands from, the result does not see the inputs. -/
theorem flagThenResult_withInputs (s : State) (x : RegIdx) (f : Byte) (g : State → Byte) (keys : List Bool) (b : Byte)
    (hg : ∀ r : State, g (r.withInputs keys b) = g r) :
    (s.withInputs keys b).flagThenResult x f g = (s.flagThenResult x f g).withInputs keys b := by
  have hop : (s.withInputs keys b).operandsFrom ((s.withInputs keys b).setReg VF f) =
      (s.operandsFrom (s.setReg VF f)).withInputs keys b := by
    cases ho : s.cfg.aluVfOrder
    · rw [operandsFrom_sequential ho, operandsFrom_sequential (s := s.withInputs keys b) ho]
      rfl
    · rw [operandsFrom_latched ho, operandsFrom_latched (s := s.withInputs keys b) ho]
  simp only [State.flagThenResult, hop, hg]
  rfl

/-- Noninterference: a changed random byte or snapshot passes through every instruction that does not read it. -/
theorem exec_withInputs {i : Instr} {s t : State} (h : exec i s = .next t) {keys : List Bool} {b : Byte}
    (hb : b = s.rnd ∨ ∀ x nn, i ≠ .rnd x nn)
    (hk : keys = s.keys ∨ (∀ x, i ≠ .skp x) ∧ (∀ x, i ≠ .sknp x) ∧ ∀ x, i ≠ .ldVxK x) :
    exec i (s.withInputs keys b) = .next (t.withInputs keys b) := by
  cases i
  case rnd x nn =>
    obtain rfl : b = s.rnd := by simpa using hb
    cases h
    rfl
  case skp x =>
    obtain rfl : keys = s.keys := by simpa using hk
    exact withKey_withInputs (k := fun down => s.skipIf down) h b
  case sknp x =>
    obtain rfl : keys = s.keys := by simpa using hk
    exact withKey_withInputs (k := fun down => s.skipIf !down) h b
  case ldVxK x =>
    obtain rfl : keys = s.keys := by simpa using hk
    have hf : (s.withInputs s.keys b).firstKeyDown = s.firstKeyDown := rfl
    simp only [exec, execLdVxK, hf] at h ⊢
    split at h <;> cases h <;> rfl
  case ret =>
    have hs : (s.withInputs keys b).stack = s.stack := rfl
    simp only [exec, execRet, hs] at h ⊢
    split at h <;> cases h
    · rw [← raiseIn_withInputs]
    · rfl
  case call nnn =>
    simp only [exec, execCall] at h
    split at h <;> cases h
    · rw [← raiseIn_withInputs]
      exact if_pos ‹_›
    · exact if_neg ‹_›
  case drw | ldB | ldMemVx | ldVxMem => exact withData_withInputs h keys b
  case addReg | subReg | subn =>
    cases h
    exact congrArg _ (flagThenResult_withInputs s _ _ _ _ _ fun _ => rfl)
  case shr x y | shl x y =>
    cases h
    exact congrArg _ (flagThenResult_withInputs (s.shiftSource x y) _ _ _ _ _ fun _ => rfl)
  all_goals
    cases h
    rfl

end Sys2Proof.Machine
end

section
/-!
PROOFS. The statements of 10_state.md.
-/

namespace Sys2Proof.Machine

/-- Settles O59, a case split over what a step can do, with one bound per element for the execute stage. -/
theorem everyStepKeepsTheAddressBounds : Obligations.EveryStepKeepsTheAddressBounds := fun _ _ hb h =>
  step_keeps_addressBounds hb h

/-- Settles O60, a case split over the calls, with the step lemma for the step port. -/
theorem everyPortCallKeepsTheShape : Obligations.EveryPortCallKeepsTheShape := fun c _ hs => call_keeps_inv c hs

/-- Settles O14, a case split over what a step can do; the fetch clears dirty. -/
theorem dirtyIsSetByClsAndDrwOnly : Obligations.DirtyIsSetByClsAndDrwOnly := by
  intro s t h
  obtain ⟨-, ⟨a, ho, rfl⟩ | ⟨w, -, hd, rfl⟩ | ⟨i, hpc, hd, he⟩⟩ := step_cases h
  · have hpc : ¬ s.pc.toNat ≤ 4094 := fun hle => by simp [fetchOutside_eq_none.2 hle] at ho
    simp [hpc]
  · simp [hd]
  · simp [exec_dirty_iff he rfl, spriteInRange_fetched, hpc, hd]

/-- Settles O15, by what an instruction can do to the stack. -/
theorem onlyCallAndRetChangeTheStack : Obligations.OnlyCallAndRetChangeTheStack := by
  intro i s t h hne
  obtain e | ⟨nnn, hi, -, e⟩ | hret := exec_stack_cases h
  · exact absurd e hne
  · exact .inl ⟨nnn, hi, e⟩
  · exact .inr hret

/-- Settles O17, by the frame of every instruction. -/
theorem onlyClsAndDrwChangeTheDisplay : Obligations.OnlyClsAndDrwChangeTheDisplay := by
  intro i s t h hcls hdrw
  have hf := exec_sameBut h
  exact ⟨hf.disp (by simp [disp_mem_mayWrite, hcls, hdrw]), hf.dirty (by simp [dirty_mem_mayWrite, hcls, hdrw])⟩

/-- Settles O18, by the frame of every instruction, and the two that write a timer. -/
theorem noInstructionCountsTheTimers : Obligations.NoInstructionCountsTheTimers := by
  intro i s t h
  have hf := exec_sameBut h
  constructor
  · by_cases hm : Part.dt ∈ i.mayWrite
    · obtain ⟨x, rfl⟩ := dt_mem_mayWrite.1 hm
      cases h
      exact .inr ⟨x, rfl, rfl⟩
    · exact .inl (hf.dt (by simp [hm]))
  · by_cases hm : Part.st ∈ i.mayWrite
    · obtain ⟨x, rfl⟩ := st_mem_mayWrite.1 hm
      cases h
      exact .inr ⟨x, rfl, rfl⟩
    · exact .inl (hf.st (by simp [hm]))

/-- Settles O19, by what an instruction can do to I. -/
theorem indexIsWrittenOnlyByItsInstructions : Obligations.IndexIsWrittenOnlyByItsInstructions := by
  intro i s t h hne
  obtain e | ⟨nnn, hi, -⟩ | ⟨x, hi, -⟩ | ⟨x, hi, -⟩ | ⟨x, hi, hq, -⟩ := exec_index_cases h
  · exact absurd e hne
  · exact .inl ⟨nnn, hi⟩
  · exact .inr (.inl ⟨x, hi⟩)
  · exact .inr (.inr (.inl ⟨x, hi⟩))
  · exact .inr (.inr (.inr ⟨hq, x, hi⟩))

/-- Settles O21, by cases of the call. -/
theorem configurationIsFixed : Obligations.ConfigurationIsFixed := call_cfg

/-- Settles O22, by noninterference of both inputs at once, the other one kept. -/
theorem inputsAreReadOnlyByTheirInstructions : Obligations.InputsAreReadOnlyByTheirInstructions := by
  intro i s t h
  have hf := exec_sameBut h
  refine ⟨fun b hi => ?_, fun keys h1 h2 h3 => ?_⟩
  · exact (exec_withInputs h (keys := s.keys) (.inr hi) (.inl rfl)).trans (by rw [← hf.keys]; rfl)
  · exact (exec_withInputs h (b := s.rnd) (.inl rfl) (.inr ⟨h1, h2, h3⟩)).trans (by rw [← hf.rnd]; rfl)

/-- Settles O55, by evaluation, the display by `get_blankDisplay`. -/
theorem resetPortGivesTheResetValues : Obligations.ResetPortGivesTheResetValues := fun s =>
  ⟨fun _ => rfl, rfl, rfl, rfl, rfl, rfl, rfl, get_blankDisplay s.cfg.displayW s.cfg.displayH, rfl, rfl, rfl, rfl, rfl⟩

/-- Settles O56: the reset state is what the reset port makes of itself. -/
theorem defaultResetState : Obligations.DefaultResetState := by
  obtain ⟨hv, hi, hdt, hst, hpc, -, hsp, hdisp, hdirty, hhalt, hfault, -⟩ := resetPortGivesTheResetValues State.reset
  exact ⟨fun r => (hv r).trans (Vector.getElem_replicate _), hi, hdt, hst, hpc, hsp, fun _ => rfl, hdisp,
    hdirty, hhalt, hfault⟩

/-- Settles O57, the shape from the legality of the default configuration, the bounds by evaluation. -/
theorem invariantsHoldAtReset : Obligations.InvariantsHoldAtReset :=
  ⟨resetWith_inv legalConfig_default [] 0, by decide, by decide, nofun⟩

end Sys2Proof.Machine
end

section
/-!
SUPPORT. Who writes memory (R68), and what a run of written bytes leaves: its bytes at their addresses and nothing else (R76,
R77, R183, R184), independent of the order of disjoint runs (R78).
-/

namespace Sys2Proof.Machine

/-! ### Who writes memory (R68) -/

theorem mem_mem_mayWrite {i : Instr} : Part.mem ∈ i.mayWrite ↔ (∃ x, i = .ldB x) ∨ ∃ x, i = .ldMemVx x := by
  cases i <;> simp [Instr.mayWrite]

/-! ### Runs of bytes -/

/-- The byte at offset `k` of a run written at `a`. -/
theorem Memory.read_writeBytes_add {m : Memory} {a : Nat} {bs : List Byte} (h : Memory.wf m = true)
    (hn : a + bs.length ≤ memSize) {k : Nat} (hk : k < bs.length) :
    Memory.read (Memory.writeBytes m a bs) (a + k) = bs[k] := by
  rw [Memory.read_writeBytes bs h hn, if_pos (by omega), Nat.add_sub_cancel_left, List.getD_eq_getElem _ _ hk]

/-- Two runs that do not overlap give one memory in either order: they read the same, and the canonical form has one memory for
each reading. -/
theorem Memory.writeBytes_comm {m : Memory} {a b : Nat} {as bs : List Byte} (h : Memory.wf m = true)
    (hab : a + as.length ≤ b) (hb : b + bs.length ≤ memSize) :
    Memory.writeBytes (Memory.writeBytes m a as) b bs = Memory.writeBytes (Memory.writeBytes m b bs) a as := by
  have hwa := Memory.writeBytes_wf as a h
  have hwb := Memory.writeBytes_wf bs b h
  have ha : a + as.length ≤ memSize := by omega
  refine Memory.eq_of_read (Memory.writeBytes_wf bs b hwa) (Memory.writeBytes_wf as a hwb) fun c => ?_
  by_cases hc : c < b
  · rw [Memory.read_writeBytes_outside hwa hb (.inl hc), Memory.read_writeBytes as h ha, Memory.read_writeBytes as hwb ha,
      Memory.read_writeBytes_outside h hb (.inl hc)]
  · have hc' : c < a ∨ a + as.length ≤ c := by omega
    rw [Memory.read_writeBytes_outside hwb ha hc', Memory.read_writeBytes bs h hb, Memory.read_writeBytes bs hwa hb,
      Memory.read_writeBytes_outside h ha hc']

/-- A state whose memory a run was written into differs from the state before in the run's bytes only. -/
theorem writeBytes_spec {s : State} {a : Nat} {bs : List Byte} (h : Memory.wf s.mem = true) (hn : a + bs.length ≤ memSize) :
    let t := { s with mem := Memory.writeBytes s.mem a bs }
    (∀ (k : Nat) (hk : k < bs.length), Memory.read t.mem (a + k) = bs[k]) ∧ sameMemBut a bs.length s t ∧ sameBut [.mem] s t :=
  ⟨fun _ hk => Memory.read_writeBytes_add h hn hk, fun _ hc => Memory.read_writeBytes_outside h hn hc,
    by simp [sameBut, State.reg]⟩

/-! ### What Fx55 stores (R184) -/

/-- In range, Fx55 leaves `V[r]` at `I + r` for every register it stores. -/
theorem read_of_exec_ldMemVx {x r : RegIdx} {s t : State} (h : Memory.wf s.mem = true) (hin : s.index.toNat + x.toNat ≤ 4095)
    (he : exec (.ldMemVx x) s = .next t) (hr : r.toNat ≤ x.toNat) :
    Memory.read t.mem (s.index.toNat + r.toNat) = s.reg r := by
  have hlen : (s.regsUpTo x).length = x.toNat + 1 := regsUpTo_length s x
  have hend : s.index.toNat + (s.regsUpTo x).length ≤ 4096 := by omega
  have hnone : firstOutside s.index (x.toNat + 1) = none := firstOutside_eq_none.2 (.inr hin)
  obtain ⟨a, ho, -⟩ | ⟨-, rfl⟩ := withData_cases he
  · rw [hnone] at ho
    cases ho
  · rw [State.autoIncrement_mem, Memory.read_writeBytes_add h hend (by omega), regsUpTo_getElem]

/-! ### The loaders by the length of the image (R76, R77, R257) -/

theorem loadFont_of_le {image : List Byte} (h : image.length ≤ 512) (s : State) :
    loadFont image s = ({ s with mem := Memory.writeBytes s.mem 0 image }, .ok) := if_neg h.not_gt

theorem loadFont_of_gt {image : List Byte} (h : 512 < image.length) (s : State) : loadFont image s = (s, .loadError) := if_pos h

theorem loadProgram_of_le {image : List Byte} (h : image.length ≤ 3584) (s : State) :
    loadProgram image s = ({ s with mem := Memory.writeBytes s.mem 512 image }, .ok) := if_neg h.not_gt

theorem loadProgram_of_gt {image : List Byte} (h : 3584 < image.length) (s : State) :
    loadProgram image s = (s, .loadError) := if_pos h

end Sys2Proof.Machine
end

section
/-!
PROOFS. The statements of 20_memory.md.
-/

namespace Sys2Proof.Machine

/-- Settles O58, a case split over what a step can do, with one invariant per element for the execute stage. -/
theorem everyStepKeepsTheShape : Obligations.EveryStepKeepsTheShape := fun _ _ => step_keeps_inv

/-- Settles O16, by the frame of every instruction. -/
theorem onlyFx33AndFx55WriteMemory : Obligations.OnlyFx33AndFx55WriteMemory := by
  intro i s t h hB hMem a
  have hm : t.mem = s.mem := (exec_frame h).2.resolve_left (by simp [mem_mem_mayWrite, hB, hMem])
  rw [hm]

/-- Settles O43, by what Fx55 leaves at the addresses of two registers next to each other. -/
theorem storedBytesAreFetchedNext : Obligations.StoredBytesAreFetchedNext := by
  intro x r s t u hs hin hr h hmem hpc
  have hnext : (r + 1).toNat = r.toNat + 1 := by bv_omega
  have h1 : Memory.read t.mem (s.index.toNat + r.toNat) = s.reg r := read_of_exec_ldMemVx hs hin h hr.le
  have h2 : Memory.read t.mem (s.index.toNat + (r + 1).toNat) = s.reg (r + 1) :=
    read_of_exec_ldMemVx hs hin h (by omega)
  rw [hnext, ← Nat.add_assoc] at h2
  rw [State.decodedAtPc, hmem, hpc, h1, h2]

/-- Settles O53, by the length of the image and what a run of written bytes leaves. -/
theorem loadersCopyOrRefuse : Obligations.LoadersCopyOrRefuse := by
  intro image s hs
  refine ⟨fun hn => ?_, fun hn => loadFont_of_gt hn s, fun hn => ?_, fun hn => loadProgram_of_gt hn s⟩
  · obtain ⟨hread, hframe⟩ := writeBytes_spec (a := 0) hs (show 0 + image.length ≤ 4096 by omega)
    rw [loadFont_of_le hn]
    exact ⟨rfl, fun k hk => by simpa using hread k hk, hframe⟩
  · rw [loadProgram_of_le hn]
    exact ⟨rfl, writeBytes_spec hs (show 512 + image.length ≤ 4096 by omega)⟩

/-- Settles O54: the runs written at 0 and at 512 do not overlap. -/
theorem loadOrderDoesNotMatter : Obligations.LoadOrderDoesNotMatter := by
  intro font program s hs hf hp
  have hcomm : Memory.writeBytes (Memory.writeBytes s.mem 0 font) 512 program =
      Memory.writeBytes (Memory.writeBytes s.mem 512 program) 0 font :=
    Memory.writeBytes_comm hs (by omega) (show 512 + program.length ≤ 4096 by omega)
  simp only [loadFont_of_le hf, loadProgram_of_le hp, hcomm]

end Sys2Proof.Machine
end

section
/-!
SUPPORT. What the decoder answers: the instruction whose encoding the word is (R92, R95), of the row that selects the word (R99),
or unknown in the bands of R96.
-/

namespace Sys2Proof

/-! ### Words by their fields (R92) -/

/-- The decoder matches on the number a field holds. -/
theorem eq_ofNat_of_toNat_eq {n k : Nat} {b : BitVec n} (h : b.toNat = k) : b = BitVec.ofNat n k := by
  rw [← h, BitVec.ofNat_toNat, BitVec.setWidth_eq]

theorem packNnn_eq_iff {op : Nibble} {nnn : Addr} {w : Word} : packNnn op nnn = w ↔ fieldOp w = op ∧ fieldNnn w = nnn :=
  ⟨by rintro rfl; simp, by rintro ⟨rfl, rfl⟩; exact packNnn_fields w⟩

theorem packXnn_eq_iff {op : Nibble} {x : RegIdx} {nn : Byte} {w : Word} :
    packXnn op x nn = w ↔ fieldOp w = op ∧ fieldX w = x ∧ fieldNn w = nn :=
  ⟨by rintro rfl; simp, by rintro ⟨rfl, rfl, rfl⟩; exact packXnn_fields w⟩

theorem packXyn_eq_iff {op : Nibble} {x y : RegIdx} {n : Nibble} {w : Word} :
    packXyn op x y n = w ↔ fieldOp w = op ∧ fieldX w = x ∧ fieldY w = y ∧ fieldN w = n :=
  ⟨by rintro rfl; simp, by rintro ⟨rfl, rfl, rfl, rfl⟩; exact packXyn_fields w⟩

theorem toNat_le_0x00FF_iff {w : Word} : w.toNat ≤ 0x00FF ↔ fieldOp w = 0x0#4 ∧ fieldX w = 0x0#4 := by
  have hw := w.isLt
  simp only [fieldOp, fieldX, ← BitVec.toNat_inj, BitVec.extractLsb'_toNat, Nat.shiftRight_eq_div_pow, BitVec.toNat_ofNat]
  omega

/-! ### The masks of R95

The fields of the `match` column are written out as bits, so that `simp` evaluates them at a row of the table. -/

section
variable {w v : Word}

theorem and_0xFFFF_eq_iff : w &&& 0xFFFF#16 = v ↔ w = v := by
  rw [show w &&& 0xFFFF#16 = w from BitVec.and_allOnes]

theorem and_0xF000_eq_iff : w &&& 0xF000#16 = v ↔ fieldOp w = v.extractLsb' 12 4 ∧ v.extractLsb' 0 12 = 0x000#12 := by
  conv_lhs => rw [← packNnn_fields w, packNnn_and, packNnn_eq_iff]
  exact and_congr_left' eq_comm

theorem and_0xF0FF_eq_iff : w &&& 0xF0FF#16 = v ↔
    fieldOp w = v.extractLsb' 12 4 ∧ v.extractLsb' 8 4 = 0x0#4 ∧ fieldNn w = v.extractLsb' 0 8 := by
  conv_lhs => rw [← packXnn_fields w, packXnn_and_nn, packXnn_eq_iff]
  exact and_congr eq_comm (and_congr_right' eq_comm)

theorem and_0xF00F_eq_iff : w &&& 0xF00F#16 = v ↔
    fieldOp w = v.extractLsb' 12 4 ∧ v.extractLsb' 8 4 = 0x0#4 ∧ v.extractLsb' 4 4 = 0x0#4 ∧
      fieldN w = v.extractLsb' 0 4 := by
  conv_lhs => rw [← packXyn_fields w, packXyn_and_n, packXyn_eq_iff]
  exact and_congr eq_comm (and_congr_right' (and_congr_right' eq_comm))

end

theorem OpcodeRow.selects_iff {r : OpcodeRow} {w : Word} :
    r.selects w = true ↔ w &&& r.mask = r.value ∧ (r.needsX = true → fieldX w ≠ 0x0#4) := by
  cases h : r.needsX <;> simp [OpcodeRow.selects, h]

/-! ### Decoding an encoding -/

/-- The two words `decodeOp0` tests first have x = 0. -/
theorem decodeOp0_of_fieldX_ne_zero {w : Word} (h : fieldX w ≠ 0x0#4) : decodeOp0 w = .instr (.sys (fieldNnn w)) := by
  have hcls : w ≠ 0x00E0#16 := by rintro rfl; exact h (by decide)
  have hret : w ≠ 0x00EE#16 := by rintro rfl; exact h (by decide)
  rw [decodeOp0, if_neg hcls, if_neg hret, if_pos h]

theorem decode_encode {i : Instr} (h : i.wf = true) : decode (encode i) = .instr i := by
  cases i
  case sys nnn =>
    have hx : fieldX (packNnn 0x0#4 nnn) ≠ 0x0#4 := by simpa [Instr.wf] using h
    simp [encode, decode, decodeOp0_of_fieldX_ne_zero hx]
  case cls | ret => rfl
  case jp | call | ldI | jpV0 => simp [encode, decode]
  case seImm | sneImm | ldImm | addImm | rnd => simp [encode, decode]
  case seReg | sneReg | drw => simp [encode, decode]
  case ldReg | orReg | andReg | xorReg | addReg | subReg | shr | subn | shl => simp [encode, decode, decodeOp8]
  case skp | sknp => simp [encode, decode, decodeOpE]
  case ldVxDt | ldVxK | ldDtVx | ldStVx | addI | ldF | ldB | ldMemVx | ldVxMem => simp [encode, decode, decodeOpF]

/-! ### Encoding what was decoded -/

/-- What the decoder answers for `w` is faithful to it: a well-formed instruction whose encoding is `w`, or unknown with `w`. -/
def Decoded.StandsFor (w : Word) : Decoded → Prop
  | .instr i => i.wf = true ∧ encode i = w
  | .unknown v => v = w

section
variable {w : Word}

theorem decodeOp0_standsFor (hop : fieldOp w = 0x0#4) : (decodeOp0 w).StandsFor w := by
  unfold decodeOp0
  split_ifs with hcls hret hx
  · exact ⟨rfl, hcls.symm⟩
  · exact ⟨rfl, hret.symm⟩
  · have hw : packNnn 0x0#4 (fieldNnn w) = w := packNnn_eq_iff.2 ⟨hop, rfl⟩
    refine ⟨?_, hw⟩
    rw [← hw] at hx
    simpa [Instr.wf] using hx
  · rfl

theorem decodeOp8_standsFor (hop : fieldOp w = 0x8#4) : (decodeOp8 w).StandsFor w := by
  unfold decodeOp8
  split
  case h_10 => rfl
  all_goals
    rename_i hn
    exact ⟨rfl, packXyn_eq_iff.2 ⟨hop, rfl, rfl, eq_ofNat_of_toNat_eq hn⟩⟩

theorem decodeOpE_standsFor (hop : fieldOp w = 0xE#4) : (decodeOpE w).StandsFor w := by
  unfold decodeOpE
  split
  case h_3 => rfl
  all_goals
    rename_i hnn
    exact ⟨rfl, packXnn_eq_iff.2 ⟨hop, rfl, eq_ofNat_of_toNat_eq hnn⟩⟩

theorem decodeOpF_standsFor (hop : fieldOp w = 0xF#4) : (decodeOpF w).StandsFor w := by
  unfold decodeOpF
  split
  case h_10 => rfl
  all_goals
    rename_i hnn
    exact ⟨rfl, packXnn_eq_iff.2 ⟨hop, rfl, eq_ofNat_of_toNat_eq hnn⟩⟩

end

/-! The arms of `decode` are the op-classes in order: arm `h_1` of a split is op-class 0, the last arm, `h_16`, op-class F. -/

theorem fieldOp_eq_0xF {w : Word} (h : ∀ k < 15, (fieldOp w).toNat ≠ k) : fieldOp w = 0xF#4 := by
  have hlt := (fieldOp w).isLt
  exact eq_ofNat_of_toNat_eq (k := 15) (by grind)

/-- The round trip from the word, arm by arm: the fields an arm answers, packed, are the word. -/
theorem decode_standsFor (w : Word) : (decode w).StandsFor w := by
  unfold decode
  split
  case h_1 hop => exact decodeOp0_standsFor (eq_ofNat_of_toNat_eq hop)
  case h_9 hop => exact decodeOp8_standsFor (eq_ofNat_of_toNat_eq hop)
  case h_15 hop => exact decodeOpE_standsFor (eq_ofNat_of_toNat_eq hop)
  case h_16 => exact decodeOpF_standsFor (fieldOp_eq_0xF (by grind))
  case h_6 hop | h_10 hop =>
    split_ifs with hn
    · exact ⟨rfl, packXyn_eq_iff.2 ⟨eq_ofNat_of_toNat_eq hop, rfl, rfl, hn⟩⟩
    · rfl
  case h_14 hop => exact ⟨rfl, packXyn_eq_iff.2 ⟨eq_ofNat_of_toNat_eq hop, rfl, rfl, rfl⟩⟩
  case h_2 hop | h_3 hop | h_11 hop | h_12 hop => exact ⟨rfl, packNnn_eq_iff.2 ⟨eq_ofNat_of_toNat_eq hop, rfl⟩⟩
  case h_4 hop | h_5 hop | h_7 hop | h_8 hop | h_13 hop =>
    exact ⟨rfl, packXnn_eq_iff.2 ⟨eq_ofNat_of_toNat_eq hop, rfl, rfl⟩⟩

/-- The decoder and the encoder are inverse to each other. -/
theorem decode_eq_instr_iff {w : Word} {i : Instr} : decode w = .instr i ↔ i.wf = true ∧ encode i = w := by
  constructor
  · intro h
    have hs := decode_standsFor w
    rwa [h] at hs
  · rintro ⟨hwf, rfl⟩
    exact decode_encode hwf

theorem decode_total (w : Word) : (∃ i, decode w = .instr i) ∨ decode w = .unknown w := by
  have hs := decode_standsFor w
  cases h : decode w with
  | instr i => exact .inl ⟨i, rfl⟩
  | unknown v =>
    rw [h] at hs
    exact .inr (congrArg _ hs)

/-! ### The row that selects the word (R99) -/

theorem encodeRow : ∀ i : Instr, Laws.EncodeRow.Statement i
  | .sys nnn => Laws.EncodeRow.sys nnn
  | .cls => Laws.EncodeRow.cls
  | .ret => Laws.EncodeRow.ret
  | .jp nnn => Laws.EncodeRow.jp nnn
  | .call nnn => Laws.EncodeRow.call nnn
  | .seImm x nn => Laws.EncodeRow.seImm x nn
  | .sneImm x nn => Laws.EncodeRow.sneImm x nn
  | .seReg x y => Laws.EncodeRow.seReg x y
  | .ldImm x nn => Laws.EncodeRow.ldImm x nn
  | .addImm x nn => Laws.EncodeRow.addImm x nn
  | .ldReg x y => Laws.EncodeRow.ldReg x y
  | .orReg x y => Laws.EncodeRow.orReg x y
  | .andReg x y => Laws.EncodeRow.andReg x y
  | .xorReg x y => Laws.EncodeRow.xorReg x y
  | .addReg x y => Laws.EncodeRow.addReg x y
  | .subReg x y => Laws.EncodeRow.subReg x y
  | .shr x y => Laws.EncodeRow.shr x y
  | .subn x y => Laws.EncodeRow.subn x y
  | .shl x y => Laws.EncodeRow.shl x y
  | .sneReg x y => Laws.EncodeRow.sneReg x y
  | .ldI nnn => Laws.EncodeRow.ldI nnn
  | .jpV0 nnn => Laws.EncodeRow.jpV0 nnn
  | .rnd x nn => Laws.EncodeRow.rnd x nn
  | .drw x y n => Laws.EncodeRow.drw x y n
  | .skp x => Laws.EncodeRow.skp x
  | .sknp x => Laws.EncodeRow.sknp x
  | .ldVxDt x => Laws.EncodeRow.ldVxDt x
  | .ldVxK x => Laws.EncodeRow.ldVxK x
  | .ldDtVx x => Laws.EncodeRow.ldDtVx x
  | .ldStVx x => Laws.EncodeRow.ldStVx x
  | .addI x => Laws.EncodeRow.addI x
  | .ldF x => Laws.EncodeRow.ldF x
  | .ldB x => Laws.EncodeRow.ldB x
  | .ldMemVx x => Laws.EncodeRow.ldMemVx x
  | .ldVxMem x => Laws.EncodeRow.ldVxMem x

/-- A row that selects a word is the row of what the word decodes to, so no two rows select one word. -/
theorem decode_of_selects {r : OpcodeRow} {w : Word} (hr : r ∈ opcodeTable) (h : r.selects w = true) :
    ∃ i, decode w = .instr i ∧ i.row = r := by
  rw [OpcodeRow.selects_iff] at h
  obtain ⟨hm, hx⟩ := h
  fin_cases hr
  · have hop : fieldOp w = 0x0#4 := (and_0xF000_eq_iff.1 hm).1
    simp [decode, hop, decodeOp0_of_fieldX_ne_zero (hx rfl), Instr.row]
  · exact ⟨.cls, congrArg decode (and_0xFFFF_eq_iff.1 hm), rfl⟩
  · exact ⟨.ret, congrArg decode (and_0xFFFF_eq_iff.1 hm), rfl⟩
  all_goals
    simp only [BitVec.ofNat_eq_ofNat, and_0xF000_eq_iff, and_0xF00F_eq_iff, and_0xF0FF_eq_iff] at hm
    simp [decode, decodeOp8, decodeOpE, decodeOpF, hm, Instr.row]

theorem opcodeTable_nodup : opcodeTable.Nodup := by decide

/-! ### The bands of R96 -/

section
variable {w : Word}

theorem decodeOp0_eq_unknown_iff :
    decodeOp0 w = .unknown w ↔ fieldX w = 0x0#4 ∧ w ≠ 0x00E0#16 ∧ w ≠ 0x00EE#16 := by
  unfold decodeOp0
  split_ifs <;> simp_all

theorem decodeOp8_eq_unknown_iff :
    decodeOp8 w = .unknown w ↔ fieldN w ∈ [0x8#4, 0x9#4, 0xA#4, 0xB#4, 0xC#4, 0xD#4, 0xF#4] := by
  unfold decodeOp8
  split
  case h_10 =>
    simp only [List.mem_cons, List.not_mem_nil, or_false, ← BitVec.toNat_inj, BitVec.toNat_ofNat]
    grind [(fieldN w).isLt]
  all_goals
    rename_i hn
    simp [eq_ofNat_of_toNat_eq hn]

theorem decodeOpE_eq_unknown_iff : decodeOpE w = .unknown w ↔ fieldNn w ∉ [0x9E#8, 0xA1#8] := by
  unfold decodeOpE
  split <;> simp_all [← BitVec.toNat_inj]

theorem decodeOpF_eq_unknown_iff : decodeOpF w = .unknown w ↔
    fieldNn w ∉ [0x07#8, 0x0A#8, 0x15#8, 0x18#8, 0x1E#8, 0x29#8, 0x33#8, 0x55#8, 0x65#8] := by
  unfold decodeOpF
  split <;> simp_all [← BitVec.toNat_inj]

end

end Sys2Proof
end

section
/-!
PROOFS. The statements of 30_encoding.md.
-/

namespace Sys2Proof

/-- Settles O1, by cases of the instruction, with the fields of a packed word. -/
theorem decodeOfEncodeIsTheInstruction : Obligations.DecodeOfEncodeIsTheInstruction := fun _ => decode_encode

/-- Settles O2, by the arms of the decoder: what each answers packs to the word. -/
theorem encodeOfDecodeIsTheWord : Obligations.EncodeOfDecodeIsTheWord := fun _ _ => decode_eq_instr_iff.1

/-- Settles O3: a row that selects a word is the row of what it decodes to, and the table holds no row twice. -/
theorem everyWordIsOneRowOrUnknown : Obligations.EveryWordIsOneRowOrUnknown := by
  intro w
  constructor
  · refine opcodeTable_nodup.imp_of_mem fun {r r'} hr hr' hne ⟨h, h'⟩ => hne ?_
    obtain ⟨i, hi, rfl⟩ := decode_of_selects hr h
    obtain ⟨j, hj, rfl⟩ := decode_of_selects hr' h'
    cases hi.symm.trans hj
    rfl
  obtain ⟨i, hi⟩ | hu := decode_total w
  · obtain ⟨hwf, rfl⟩ := decode_eq_instr_iff.1 hi
    exact .inl ⟨i, hi, encodeRow i hwf⟩
  · refine .inr ⟨hu, fun r hr => Bool.eq_false_iff.2 fun hsel => ?_⟩
    obtain ⟨i, hi, -⟩ := decode_of_selects hr hsel
    cases hi.symm.trans hu

/-- Settles O4, by the op-classes: 0, 8, E and F have a lemma each, 5 and 9 test n, the others answer an instruction. -/
theorem unknownWordsAreTheBandsOfR96 : Obligations.UnknownWordsAreTheBandsOfR96 := by
  intro w
  rw [toNat_le_0x00FF_iff]
  unfold decode
  split
  case h_1 hop => simp [eq_ofNat_of_toNat_eq hop, decodeOp0_eq_unknown_iff]
  case h_9 hop => simp [eq_ofNat_of_toNat_eq hop, decodeOp8_eq_unknown_iff]
  case h_15 hop => simp [eq_ofNat_of_toNat_eq hop, decodeOpE_eq_unknown_iff]
  case h_16 => simp [fieldOp_eq_0xF (w := w) (by grind), decodeOpF_eq_unknown_iff]
  case h_6 hop | h_10 hop => simp [eq_ofNat_of_toNat_eq hop]
  all_goals
    rename_i hop
    simp [eq_ofNat_of_toNat_eq hop]

/-- Settles O5, by evaluation at the eleven words. -/
theorem exampleWordsDecode : Obligations.ExampleWordsDecode := by
  unfold Obligations.ExampleWordsDecode
  decide

end Sys2Proof
end

section
/-!
SUPPORT. What each stage of a step answers when its condition holds (R120 to R123), what taking a fault leaves (R243, R244), the
ticks before a step as subtraction (R251, R252), the general registers an instruction leaves (R22, R125), and the words of a row of
the opcode map (R95).
-/

namespace Sys2Proof.Machine

/-! ### The stages of a step, from their conditions (R120 to R123) -/

theorem beginStep_of_ready {s : State} (hr : s.Ready) : beginStep s = fetchDecode s.accept := by
  obtain ⟨hc, hh, hk⟩ := hr
  simp [beginStep, hc, hh, hk]

theorem step_of_fetchOutside {s : State} {a : Word} (hr : s.Ready) (h : fetchOutside s.pc = some a) :
    step s = .next (takeFault { code := .fetchOutOfRange, word := none, pc := s.pc, addr := some a }
      { s.accept with dirty := false }) := by
  simp [step, beginStep_of_ready hr, fetchDecode, h]

theorem step_of_unknown {s : State} {w : Word} (hr : s.Ready) (hpc : s.pc.toNat ≤ 4094) (hd : s.decodedAtPc = .unknown w) :
    step s = .next (takeFault { code := .unknownInstruction, word := some w, pc := s.pc, addr := none } s.fetched) := by
  rw [State.decodedAtPc] at hd
  simp [step, beginStep_of_ready hr, fetchDecode, fetchOutside_eq_none.2 hpc, fetchedBytes, hd, State.fetched]

theorem step_of_instr {s : State} {i : Instr} (hr : s.Ready) (hpc : s.pc.toNat ≤ 4094) (hd : s.decodedAtPc = .instr i) :
    step s = exec i s.fetched := by
  rw [State.decodedAtPc] at hd
  simp [step, beginStep_of_ready hr, fetchDecode, fetchOutside_eq_none.2 hpc, fetchedBytes, hd, State.fetched]

theorem step_of_halted {s : State} (hc : legalConfig s.cfg = true) (hh : s.halt = true) :
    step s = .fault (.halted s.fault) := by
  simp [step, beginStep, hc, hh]

theorem fetchOutside_of_gt {pc : Word} (h : 4094 < pc.toNat) :
    fetchOutside pc = some (if 4095 < pc.toNat then pc else pc + 1) := by
  rw [fetchOutside, if_neg (by omega), apply_ite some]

/-! ### Taking a fault (R243, R244) -/

theorem sameBut_takeFault (r : FaultRecord) (s : State) : sameBut [.latch] s (takeFault r s) := by
  simp [sameBut]

theorem faulted_takeFault {r : FaultRecord} {s : State} (h : r.code.halts s.cfg.unknownPolicy = true) :
    faulted r s (takeFault r s) := by
  refine ⟨?_, ?_, takeFault_reply r s, sameBut_takeFault r s⟩ <;> rw [takeFault_of_halts h]

theorem faulted_raiseIn (i : Instr) {c : FaultCode} (a : Option Word) (s : State) (h : c ≠ .unknownInstruction) :
    faulted (recordOf i c a s) s (raiseIn i c a s) :=
  faulted_takeFault (halts_of_ne _ h)

/-! ### The ticks before a step (R251, R252) -/

theorem countDown_toNat (t : Byte) : (countDown t).toNat = t.toNat - 1 := by
  unfold countDown
  split
  · next h => simp [h]
  · next h =>
    have : t.toNat ≠ 0 := fun e => h (BitVec.eq_of_toNat_eq e)
    rw [BitVec.toNat_sub_of_le (by rw [BitVec.le_def]; simp; omega)]
    simp

theorem countDownBy_toNat (n : Nat) (t : Byte) : (countDownBy n t).toNat = t.toNat - n := by
  induction n generalizing t with
  | zero => rfl
  | succ n ih => rw [countDownBy, ih, countDown_toNat]; omega

/-! ### Where control goes (R126, R127, R129, R135) -/

theorem addrWord_toNat (nnn : Addr) : (addrWord nnn).toNat = nnn.toNat := BitVec.toNat_setWidth_of_le (by decide)

theorem byteWord_toNat (b : Byte) : (byteWord b).toNat = b.toNat := BitVec.toNat_setWidth_of_le (by decide)

/-- The largest sum is 0xFFF + 0xFF, so nothing is reduced (R135). -/
theorem addrWord_add_byteWord_toNat (nnn : Addr) (b : Byte) : (addrWord nnn + byteWord b).toNat = nnn.toNat + b.toNat := by
  rw [BitVec.toNat_add_of_lt (by rw [addrWord_toNat, byteWord_toNat]; omega), addrWord_toNat, byteWord_toNat]

theorem sameBut_jump (s : State) (a : Word) : sameBut [.pc] s (s.jump a) := by simp [sameBut]

theorem sameBut_skipIf (s : State) (c : Bool) : sameBut [.pc] s (s.skipIf c) := by simp [sameBut]

/-! ### Who writes a general register (R22) -/

theorem sameBut.reg {ps : List Part} {s t : State} (h : sameBut ps s t) (hp : Part.regs ∉ ps) (r : RegIdx) :
    t.reg r = s.reg r := by
  obtain ⟨h, -⟩ := h
  exact h.resolve_left hp r

/-- A flag-setting rule leaves every register but its destination and VF (R150). -/
theorem reg_flagThenResult_of_ne {s : State} {x r : RegIdx} {f : Byte} {g : State → Byte} (hx : r ≠ x) (hf : r ≠ VF) :
    (s.flagThenResult x f g).reg r = s.reg r := by
  rw [reg_flagThenResult, if_neg hx, if_neg hf]

theorem Wrote.reg_eq {i : Instr} {s t : State} {r : RegIdx} (h : Wrote s t i) (hr : i.writesReg r = false)
    (hf : r = VF → i.writesFlag = false) : t.reg r = s.reg r := by
  cases i
  case ldImm | addImm | ldReg | orReg | andReg | xorReg | rnd | ldVxDt =>
    obtain ⟨b, rfl⟩ := h
    exact reg_setReg_of_ne s b (by simpa [Instr.writesReg] using hr)
  case ldVxK =>
    obtain rfl | ⟨b, rfl⟩ := h
    · rfl
    · exact reg_setReg_of_ne s b (by simpa [Instr.writesReg] using hr)
  case addReg | subReg | subn =>
    obtain ⟨f, g, rfl⟩ := h
    exact reg_flagThenResult_of_ne (by simpa [Instr.writesReg] using hr) (by simpa [Instr.writesFlag] using hf)
  case shr x y | shl x y =>
    obtain ⟨f, g, rfl⟩ := h
    have hx : r ≠ x := by simpa [Instr.writesReg] using hr
    rw [reg_flagThenResult_of_ne hx (by simpa [Instr.writesFlag] using hf), reg_shiftSource, if_neg (hx ·.2)]
  case drw =>
    obtain ⟨-, b, rfl⟩ := h
    exact reg_setReg_of_ne s b (by simpa [Instr.writesFlag] using hf)
  case ldVxMem x =>
    obtain ⟨-, rfl⟩ := h
    have hx : ¬ r.toNat ≤ x.toNat := by simpa [Instr.writesReg] using hr
    rw [reg_autoIncrement, reg_loadRegs, if_neg hx]
  case sys | cls | ret | jp | call | seImm | sneImm | seReg | sneReg | ldI | jpV0 | skp | sknp | ldDtVx | ldStVx | addI | ldF
      | ldB | ldMemVx => exact h.frame.1.reg (by simp [Instr.mayWrite]) r

end Sys2Proof.Machine

namespace Sys2Proof

/-! ### The words of a row whose fields are all kept (R95) -/

theorem rowDecodes_xnn {form : Word → Instr} (op : Nibble) (hwf : ∀ w, (form w).wf = true)
    (he : ∀ w, encode (form w) = packXnn op (fieldX w) (fieldNn w)) : rowDecodes (packNnn op 0x000#12) 0xF000#16 form := by
  intro w
  rw [decode_eq_instr_iff, he, packXnn_eq_iff]
  conv_lhs => rw [← packXnn_fields w, packXnn_and, packNnn_eq_iff]
  simp [hwf, eq_comm]

theorem rowDecodes_xyn {form : Word → Instr} (op n : Nibble) (hwf : ∀ w, (form w).wf = true)
    (he : ∀ w, encode (form w) = packXyn op (fieldX w) (fieldY w) n) :
    rowDecodes (packXyn op 0x0#4 0x0#4 n) 0xF00F#16 form := by
  intro w
  rw [decode_eq_instr_iff, he, packXyn_eq_iff]
  conv_lhs => rw [← packXyn_fields w, packXyn_and_n, packXyn_eq_iff]
  simp [hwf, eq_comm]

end Sys2Proof
end

section
/-!
PROOFS. The statements of 40_sequencer_control.md.
-/

namespace Sys2Proof.Machine

/-- Settles O9, by the state the stages before execute leave, and whether its fault halts. -/
theorem unknownWordFollowsThePolicy : Obligations.UnknownWordFollowsThePolicy := by
  intro s w hr hpc hd r
  have hstep : step s = .next (takeFault r s.fetched) := step_of_unknown hr hpc hd
  constructor
  · intro hp
    exact ⟨_, hstep, faulted_takeFault (by simp [r, FaultCode.halts, hp])⟩
  · intro hp
    have hgo : takeFault r s.fetched = { s.fetched with reply := .fault r } :=
      takeFault_of_not_halts (by simp [r, FaultCode.halts, hp])
    obtain ⟨-, hh, -⟩ := hr
    refine ⟨_, hstep, takeFault_reply _ _, ?_, ?_, sameBut_takeFault _ _⟩ <;> rw [hgo]
    · exact (State.fetched_halt s).trans hh
    · exact State.fetched_fault s

/-- Settles O20, by what each instruction writes. -/
theorem registersAreWrittenOnlyByTheirRules : Obligations.RegistersAreWrittenOnlyByTheirRules := by
  intro i s t r h hr hf
  obtain hraised | hwrote := exec_cases h
  · exact hraised.frame.1.reg (by simp) r
  · exact hwrote.reg_eq hr hf

/-- Settles O27: the words keep x and nn, and the skip is `skipIf` under the comparison. -/
theorem skipsOnImmediate : Obligations.SkipsOnImmediate :=
  ⟨rowDecodes_xnn 0x3#4 (fun _ => rfl) fun _ => rfl, rowDecodes_xnn 0x4#4 (fun _ => rfl) fun _ => rfl,
    fun _ _ s => ⟨⟨_, rfl, by simp, sameBut_skipIf s _⟩, ⟨_, rfl, by simp, sameBut_skipIf s _⟩⟩⟩

/-- Settles O28: the words keep x and y, those with n ≠ 0 are in the bands of R96. -/
theorem skipsOnRegisters : Obligations.SkipsOnRegisters := by
  refine ⟨rowDecodes_xyn 0x5#4 0x0#4 (fun _ => rfl) fun _ => rfl, rowDecodes_xyn 0x9#4 0x0#4 (fun _ => rfl) fun _ => rfl,
    fun w hop hn => (unknownWordsAreTheBandsOfR96 w).2 ?_,
    fun _ _ s => ⟨⟨_, rfl, by simp, sameBut_skipIf s _⟩, ⟨_, rfl, by simp, sameBut_skipIf s _⟩⟩⟩
  obtain h5 | h9 := hop
  · exact .inr (.inl ⟨h5, hn⟩)
  · exact .inr (.inr (.inr (.inl ⟨h9, hn⟩)))

/-- Settles O6, by the state the stages before execute leave. -/
theorem stepExecutesTheDecodedInstruction : Obligations.StepExecutesTheDecodedInstruction := fun _ _ => step_of_instr

/-- Settles O7: the fetch advances pc and clears dirty, the ticks before it are a subtraction clamped at 0. -/
theorem fetchedStateIsTheStateBeforeTheStep : Obligations.FetchedStateIsTheStateBeforeTheStep := fun s =>
  ⟨rfl, rfl, rfl, rfl, rfl, by rw [State.fetched_dt, countDownBy_toNat], by rw [State.fetched_st, countDownBy_toNat],
    reg_fetched s, fun _ => by rw [State.fetched_mem], State.fetched_index s, State.fetched_stack s, State.fetched_disp s,
    State.fetched_halt s, State.fetched_fault s, State.fetched_cfg s⟩

/-- Settles O8: the fetch fault is taken before pc is advanced. -/
theorem fetchPastMemoryHaltsWithoutAdvancing : Obligations.FetchPastMemoryHaltsWithoutAdvancing := by
  intro s hr hpc
  exact ⟨_, step_of_fetchOutside hr (fetchOutside_of_gt hpc), by simp, by simp, faulted_takeFault (halts_of_ne _ nofun)⟩

/-- Settles O10: HALT is tested before the inputs are taken. -/
theorem haltedEngineTakesNoStep : Obligations.HaltedEngineTakesNoStep := by
  intro s hc hh
  refine ⟨step_of_halted hc hh, fun r keys rnd hf => ?_⟩
  have hport : stepWith keys rnd s = .fault (.halted (some r)) := hf ▸ step_of_halted hc hh
  simp [call, hport]

/-- Settles O24, by the target of each jump. -/
theorem sysAndJumps : Obligations.SysAndJumps := fun nnn s =>
  ⟨rfl, ⟨_, rfl, addrWord_toNat nnn, sameBut_jump s _⟩,
    ⟨_, rfl, addrWord_add_byteWord_toNat nnn _, sameBut_jump s _⟩⟩

/-- Settles O25, by the room on the stack. -/
theorem callPushesOrOverflows : Obligations.CallPushesOrOverflows := by
  intro nnn s
  constructor
  · intro hroom
    exact ⟨_, if_neg hroom, addrWord_toNat nnn, rfl, (Wrote.frame (i := .call nnn) ⟨hroom, rfl⟩).1⟩
  · intro hfull
    exact ⟨_, if_pos hfull, faulted_raiseIn (.call nnn) none s nofun⟩

/-- Settles O26, by the entries of the stack. -/
theorem returnPopsOrUnderflows : Obligations.ReturnPopsOrUnderflows := by
  intro s
  constructor
  · intro top rest hs
    refine ⟨{ s with pc := top, stack := rest }, by simp [exec, execRet, hs], rfl, rfl, ?_⟩
    exact (Wrote.frame (i := .ret) ⟨top, rest, hs, rfl⟩).1
  · intro hsp
    have hs : s.stack = [] := List.length_eq_zero_iff.1 hsp
    exact ⟨_, by simp [exec, execRet, hs], faulted_raiseIn .ret none s nofun⟩

end Sys2Proof.Machine
end

section
/-!
SUPPORT. The register and ALU rules: the frame of a register write and of a flag-setting rule (R125, R150), what such a rule
leaves in VF and in V[x] under each ALU_VF_ORDER, and the flags, differences and shifts as numbers (R157 to R163).
-/

namespace Sys2Proof.Machine

/-! ### The frame of a register write (R22, R125) -/

section
variable (s : State) (x y : RegIdx) (b f : Byte) (g : State → Byte)

theorem sameBut_setReg : sameBut [.regs] s (s.setReg x b) := by simp [sameBut]

theorem sameBut_flagThenResult : sameBut [.regs] s (s.flagThenResult x f g) := by simp [sameBut]

theorem sameBut_shift : sameBut [.regs] s ((s.shiftSource x y).flagThenResult x f g) := by simp [sameBut]

theorem sameRegsBut_setReg : sameRegsBut [x] s (s.setReg x b) := fun _ hr =>
  reg_setReg_of_ne s b (List.ne_of_not_mem_cons hr)

theorem sameRegsBut_flagThenResult : sameRegsBut [x, VF] s (s.flagThenResult x f g) := fun r hr => by
  obtain ⟨hx, hf⟩ : r ≠ x ∧ r ≠ VF := by simpa using hr
  exact reg_flagThenResult_of_ne hx hf

theorem sameRegsBut_shift : sameRegsBut [x, VF] s ((s.shiftSource x y).flagThenResult x f g) := fun r hr =>
  (sameRegsBut_flagThenResult (s.shiftSource x y) x f g r hr).trans (reg_setReg_of_ne s _ (List.ne_of_not_mem_cons hr))

end

/-! ### A flag-setting rule under each ALU_VF_ORDER (R150) -/

section
variable {s : State} {x : RegIdx} {f : Byte} {g : State → Byte}

theorem reg_VF_flagThenResult (hx : x ≠ VF) : (s.flagThenResult x f g).reg VF = f := by
  rw [reg_flagThenResult, if_neg hx.symm, if_pos rfl]

theorem reg_flagThenResult_same : (s.flagThenResult x f g).reg x = g (s.operandsFrom (s.setReg VF f)) := by
  rw [reg_flagThenResult, if_pos rfl]

theorem reg_flagThenResult_latched (ho : s.cfg.aluVfOrder = .latched) : (s.flagThenResult x f g).reg x = g s := by
  rw [reg_flagThenResult_same, operandsFrom_latched ho]

theorem reg_flagThenResult_sequential (ho : s.cfg.aluVfOrder = .sequential) :
    (s.flagThenResult x f g).reg x = g (s.setReg VF f) := by
  rw [reg_flagThenResult_same, operandsFrom_sequential ho]

/-- Where the result reads no VF, the order has no effect but to be the state's order (R150). -/
theorem flagThenResult_withOrder (hg : ∀ t, sameRegsBut [VF] s t → g t = g s) (o : AluVfOrder) :
    (s.withOrder o).flagThenResult x f g = ((s.setReg VF f).setReg x (g s)).withOrder o := by
  have hread : g ((s.withOrder o).operandsFrom ((s.withOrder o).setReg VF f)) = g s := by
    cases o with
    | sequential => exact hg _ (sameRegsBut_setReg s VF f)
    | latched => exact hg (s.withOrder .latched) fun _ _ => rfl
  rw [State.flagThenResult, hread]
  rfl

end

/-- `s` is the state before the instruction, `u` the one its flag-setting rule starts from: a shift has copied its source. -/
theorem exec_orders_agree {i : Instr} {s : State} {x : RegIdx} (u : State) (f : Byte) (g : State → Byte)
    (hg : ∀ t, sameRegsBut [VF] u t → g t = g u)
    (hexec : ∀ o, exec i (s.withOrder o) = .next ((u.withOrder o).flagThenResult x f g)) :
    ∃ t : State, exec i (s.withOrder .sequential) = .next (t.withOrder .sequential) ∧
      exec i (s.withOrder .latched) = .next (t.withOrder .latched) :=
  ⟨_, by rw [hexec, flagThenResult_withOrder hg], by rw [hexec, flagThenResult_withOrder hg]⟩

/-! ### The flags as numbers (R157 to R163) -/

theorem flagByte_toNat (b : Bool) : (flagByte b).toNat = if b = true then 1 else 0 := by
  cases b <;> rfl

theorem carryFlag_toNat (a b : Byte) : (carryFlag a b).toNat = if 255 < a.toNat + b.toNat then 1 else 0 := by
  simp [carryFlag, flagByte_toNat]

theorem notBorrowFlag_toNat (a b : Byte) : (notBorrowFlag a b).toNat = if b.toNat ≤ a.toNat then 1 else 0 := by
  simp [notBorrowFlag, flagByte_toNat]

theorem shiftOutRight_toNat (a : Byte) : (shiftOutRight a).toNat = a.toNat % 2 := by
  rw [shiftOutRight, BitVec.toNat_and]
  exact Nat.and_one_is_mod _

theorem shiftOutLeft_toNat (a : Byte) : (shiftOutLeft a).toNat = a.toNat / 128 := by
  have hbit : (shiftOutLeft a).toNat = a.toNat / 128 % 2 := by
    rw [shiftOutLeft, BitVec.toNat_and, BitVec.toNat_ushiftRight, Nat.shiftRight_eq_div_pow]
    exact Nat.and_one_is_mod _
  omega

/-! ### The results as numbers (R157 to R161) -/

theorem byte_sub_toNat (a b : Byte) : (a - b).toNat = (256 + a.toNat - b.toNat) % 256 := by
  rw [BitVec.toNat_sub]
  omega

theorem byte_shiftRight_toNat (a : Byte) : (a >>> 1).toNat = a.toNat / 2 := by
  rw [BitVec.toNat_ushiftRight, Nat.shiftRight_one]

theorem byte_shiftLeft_toNat (a : Byte) : (a <<< 1).toNat = 2 * a.toNat % 256 := by
  rw [BitVec.toNat_shiftLeft, Nat.shiftLeft_eq, Nat.mul_comm]

/-! ### Subtractions and shifts -/

/-- V[x] <- V[u] - V[w] with the NOT-borrow in VF; SUB and SUBN are its two readings (R158, R160). -/
theorem flagThenResult_sub (s : State) (x u w : RegIdx) :
    let f := if (s.reg w).toNat ≤ (s.reg u).toNat then 1 else 0
    let t := s.flagThenResult x (notBorrowFlag (s.reg u) (s.reg w)) fun r => r.reg u - r.reg w
    (x ≠ VF → (t.reg VF).toNat = f) ∧
      (s.cfg.aluVfOrder = .latched → (t.reg x).toNat = (256 + (s.reg u).toNat - (s.reg w).toNat) % 256) ∧
      (s.cfg.aluVfOrder = .sequential → (t.reg x).toNat =
        (256 + (if u = VF then f else (s.reg u).toNat) - (if w = VF then f else (s.reg w).toNat)) % 256) ∧
      sameRegsBut [x, VF] s t ∧ sameBut [.regs] s t := by
  refine ⟨fun hx => ?_, fun ho => ?_, fun ho => ?_, sameRegsBut_flagThenResult s x _ _, sameBut_flagThenResult s x _ _⟩
  · rw [reg_VF_flagThenResult hx, notBorrowFlag_toNat]
  · rw [reg_flagThenResult_latched ho, byte_sub_toNat]
  · rw [reg_flagThenResult_sequential ho, byte_sub_toNat, reg_setReg, reg_setReg, apply_ite BitVec.toNat,
      apply_ite BitVec.toNat, notBorrowFlag_toNat]

/-- The source of a shift (R159, R161). -/
theorem toNat_reg_shiftSource_same (s : State) (x y : RegIdx) :
    ((s.shiftSource x y).reg x).toNat = if s.cfg.shiftUsesVy = true then (s.reg y).toNat else (s.reg x).toNat := by
  rw [State.shiftSource, reg_setReg_same, apply_ite BitVec.toNat]

/-- A shift whose flag and result are `flag` and `op` of the source as numbers (R159, R161). -/
theorem flagThenResult_shift (s : State) (x y : RegIdx) {flagB opB : Byte → Byte} {flag op : Nat → Nat}
    (hflag : ∀ a, (flagB a).toNat = flag a.toNat) (hop : ∀ a, (opB a).toNat = op a.toNat) :
    let a := if s.cfg.shiftUsesVy = true then (s.reg y).toNat else (s.reg x).toNat
    let t := (s.shiftSource x y).flagThenResult x (flagB ((s.shiftSource x y).reg x)) fun r => opB (r.reg x)
    (x ≠ VF → (t.reg VF).toNat = flag a) ∧ (s.cfg.aluVfOrder = .latched → (t.reg x).toNat = op a) ∧
      (s.cfg.aluVfOrder = .sequential → (t.reg x).toNat = op (if x = VF then flag a else a)) ∧
      sameRegsBut [x, VF] s t ∧ sameBut [.regs] s t := by
  refine ⟨fun hx => ?_, fun ho => ?_, fun ho => ?_, sameRegsBut_shift s x y _ _, sameBut_shift s x y _ _⟩
  · rw [reg_VF_flagThenResult hx, hflag, toNat_reg_shiftSource_same]
  · rw [reg_flagThenResult_latched (s := s.shiftSource x y) ho, hop, toNat_reg_shiftSource_same]
  · rw [reg_flagThenResult_sequential (s := s.shiftSource x y) ho, hop, reg_setReg, apply_ite BitVec.toNat, hflag,
      toNat_reg_shiftSource_same]

end Sys2Proof.Machine
end

section
/-!
PROOFS. The statements of 41_alu.md.
-/

namespace Sys2Proof.Machine

/-- Settles O29: the words keep their fields, and each rule is one register write. -/
theorem loadsAndImmediateAdd : Obligations.LoadsAndImmediateAdd := by
  refine ⟨rowDecodes_xnn 0x6#4 (fun _ => rfl) fun _ => rfl, rowDecodes_xnn 0x7#4 (fun _ => rfl) fun _ => rfl,
    rowDecodes_xyn 0x8#4 0x0#4 (fun _ => rfl) fun _ => rfl, fun x y nn s => ⟨?_, ?_, ?_⟩⟩
  · exact ⟨_, rfl, reg_setReg_same s x _, sameRegsBut_setReg s x _, sameBut_setReg s x _⟩
  · exact ⟨_, rfl, by rw [reg_setReg_same, BitVec.toNat_add], sameRegsBut_setReg s x _, sameBut_setReg s x _⟩
  · exact ⟨_, rfl, reg_setReg_same s x _, sameRegsBut_setReg s x _, sameBut_setReg s x _⟩

/-- Settles O30: each rule writes V[x] only, with the operation of bytes that acts bit by bit. -/
theorem bitwiseOperations : Obligations.BitwiseOperations := by
  refine ⟨rowDecodes_xyn 0x8#4 0x1#4 (fun _ => rfl) fun _ => rfl, rowDecodes_xyn 0x8#4 0x2#4 (fun _ => rfl) fun _ => rfl,
    rowDecodes_xyn 0x8#4 0x3#4 (fun _ => rfl) fun _ => rfl, fun x y s => ⟨?_, ?_, ?_⟩⟩
  · exact ⟨_, rfl, fun b => by rw [reg_setReg_same, BitVec.getLsbD_or], sameRegsBut_setReg s x _, sameBut_setReg s x _⟩
  · exact ⟨_, rfl, fun b => by rw [reg_setReg_same, BitVec.getLsbD_and], sameRegsBut_setReg s x _, sameBut_setReg s x _⟩
  · exact ⟨_, rfl, fun b => by rw [reg_setReg_same, BitVec.getLsbD_xor], sameRegsBut_setReg s x _, sameBut_setReg s x _⟩

/-- Settles O31: the rule writes V[x] only, with the AND of bytes. -/
theorem randomByteIsMasked : Obligations.RandomByteIsMasked := fun x _ s =>
  ⟨_, rfl, fun b => by rw [reg_setReg_same, BitVec.getLsbD_and], sameRegsBut_setReg s x _, sameBut_setReg s x _⟩

/-- Settles O32: the sum is bound before the flag is written, so the order does not matter. -/
theorem addWithCarry : Obligations.AddWithCarry := fun x _ s =>
  ⟨_, rfl, by rw [reg_flagThenResult_same, BitVec.toNat_add], fun hx => by rw [reg_VF_flagThenResult hx, carryFlag_toNat],
    sameRegsBut_flagThenResult s x _ _, sameBut_flagThenResult s x _ _⟩

/-- Settles O33: V[x] minus V[y]. -/
theorem subtractWithBorrow : Obligations.SubtractWithBorrow := fun x y s =>
  ⟨_, rfl, flagThenResult_sub s x x y⟩

/-- Settles O34: V[y] minus V[x]. -/
theorem reverseSubtractWithBorrow : Obligations.ReverseSubtractWithBorrow := fun x y s =>
  ⟨_, rfl, flagThenResult_sub s x y x⟩

/-- Settles O35: the flag is the source modulo 2, the result its half. -/
theorem shiftRight : Obligations.ShiftRight := fun x y s =>
  ⟨_, rfl, flagThenResult_shift s x y (flag := (· % 2)) (op := (· / 2)) shiftOutRight_toNat byte_shiftRight_toNat⟩

/-- Settles O36: the flag is the source divided by 128, the result its double modulo 256. -/
theorem shiftLeft : Obligations.ShiftLeft := fun x y s =>
  ⟨_, rfl, flagThenResult_shift s x y (flag := (· / 128)) (op := (2 * · % 256)) shiftOutLeft_toNat byte_shiftLeft_toNat⟩

/-- Settles O37: with x and y other than VF, no result reads the register the flag is written to. -/
theorem ordersAgreeAwayFromVf : Obligations.OrdersAgreeAwayFromVf := by
  intro x y s hx hy i hi
  have hx' : x ∉ [VF] := mt List.mem_singleton.1 hx
  have hy' : y ∉ [VF] := mt List.mem_singleton.1 hy
  simp only [List.mem_cons, List.not_mem_nil, or_false] at hi
  obtain rfl | rfl | rfl | rfl := hi
  · exact exec_orders_agree s (notBorrowFlag (s.reg x) (s.reg y)) (fun r => r.reg x - r.reg y)
      (fun t ht => by rw [ht x hx', ht y hy']) fun _ => rfl
  · exact exec_orders_agree (s.shiftSource x y) (shiftOutRight ((s.shiftSource x y).reg x)) (fun r => r.reg x >>> 1)
      (fun t ht => by rw [ht x hx']) fun _ => rfl
  · exact exec_orders_agree s (notBorrowFlag (s.reg y) (s.reg x)) (fun r => r.reg y - r.reg x)
      (fun t ht => by rw [ht x hx', ht y hy']) fun _ => rfl
  · exact exec_orders_agree (s.shiftSource x y) (shiftOutLeft ((s.shiftSource x y).reg x)) (fun r => r.reg x <<< 1)
      (fun t ht => by rw [ht x hx']) fun _ => rfl

end Sys2Proof.Machine
end

section
/-!
SUPPORT. Accesses at I by their range (R183 to R186), and what the index and memory rules leave in I and in memory, as numbers
(R181 to R185).
-/

namespace Sys2Proof.Machine

/-! ### Accesses by their range (R186, R243) -/

section
variable {s : State} {count : Nat} (i : Instr) (k : State)

theorem withData_in_range (h : s.index.toNat + (count - 1) ≤ 4095) : s.withData i count k = .next k :=
  withData_of_none (firstOutside_eq_none.2 (.inr h))

theorem withData_out_of_range (hc : 0 < count) (h : 4095 < s.index.toNat + (count - 1)) :
    ∃ t, s.withData i count k = .next t ∧
      faulted (recordOf i .dataOutOfRange (some (BitVec.ofNat 16 (max s.index.toNat 4096))) s) s t :=
  ⟨_, withData_of_some (firstOutside_eq_some hc h), faulted_raiseIn i _ s nofun⟩

end

/-! ### What the rules write, as numbers -/

/-- The low nibble times five fits a word (R182). -/
theorem glyphAddress_toNat (b : Byte) : (byteWord (b &&& 0x0F#8) * 5#16).toNat = b.toNat % 16 * 5 := by
  have hlow : (b &&& 0x0F#8).toNat = b.toNat % 16 := by
    rw [BitVec.toNat_and]
    exact Nat.and_two_pow_sub_one_eq_mod b.toNat 4
  rw [BitVec.toNat_mul, byteWord_toNat, hlow, BitVec.toNat_ofNat]
  omega

@[simp] theorem bcdDigits_length (b : Byte) : (bcdDigits b).length = 3 := rfl

theorem bcdDigits_hundreds_toNat (b : Byte) : (bcdDigits b)[0].toNat = b.toNat / 100 := BitVec.toNat_udiv

theorem bcdDigits_tens_toNat (b : Byte) : (bcdDigits b)[1].toNat = b.toNat / 10 % 10 := by simp [bcdDigits]

theorem bcdDigits_ones_toNat (b : Byte) : (bcdDigits b)[2].toNat = b.toNat % 10 := BitVec.toNat_umod

/-- In range the incremented I is one past the last address accessed, so it is not reduced modulo 2^16 (R184, R185). -/
theorem autoIncrement_index_toNat {s : State} {x : RegIdx} (h : s.index.toNat + x.toNat ≤ 4095) :
    (s.autoIncrement x).index.toNat =
      if s.cfg.ldstIncrementsI = true then s.index.toNat + x.toNat + 1 else s.index.toNat := by
  have hx : (x.zeroExtend 16).toNat = x.toNat := BitVec.toNat_setWidth_of_le (by decide)
  rw [autoIncrement_index, apply_ite BitVec.toNat]
  simp only [BitVec.toNat_add, hx, show (1 : Word).toNat = 1 from rfl]
  congr 1
  omega

end Sys2Proof.Machine
end

section
/-!
PROOFS. The statements of 42_index_memory.md.
-/

namespace Sys2Proof.Machine

/-- Settles O39, by the range of the access and what a run of written bytes leaves. -/
theorem decimalDigitsAreStored : Obligations.DecimalDigitsAreStored := by
  intro x s hs
  refine ⟨fun hin => ?_, withData_out_of_range (.ldB x) _ (Nat.succ_pos 2)⟩
  obtain ⟨hread, hframe⟩ := writeBytes_spec (bs := bcdDigits (s.reg x)) hs (show s.index.toNat + 3 ≤ 4096 by omega)
  refine ⟨_, withData_in_range (.ldB x) _ hin, ?_, ?_, ?_, hframe⟩
  · exact (congrArg BitVec.toNat (hread 0 (by simp))).trans (bcdDigits_hundreds_toNat _)
  · exact (congrArg BitVec.toNat (hread 1 (by simp))).trans (bcdDigits_tens_toNat _)
  · exact (congrArg BitVec.toNat (hread 2 (by simp))).trans (bcdDigits_ones_toNat _)

/-- Settles O40, by the range of the access and what Fx55 leaves at the address of each register it stores. -/
theorem registersAreStored : Obligations.RegistersAreStored := by
  intro x s hs
  refine ⟨fun hin => ?_, withData_out_of_range (.ldMemVx x) _ x.toNat.succ_pos⟩
  have hlen : (s.regsUpTo x).length = x.toNat + 1 := regsUpTo_length s x
  have hend : s.index.toNat + (s.regsUpTo x).length ≤ 4096 := by omega
  have he := withData_in_range (s := s) (count := x.toNat + 1) (.ldMemVx x)
    ({ s with mem := Memory.writeBytes s.mem s.index.toNat (s.regsUpTo x) }.autoIncrement x) hin
  obtain ⟨-, houtside, -⟩ := writeBytes_spec hs hend
  rw [hlen] at houtside
  exact ⟨_, he, fun _ => read_of_exec_ldMemVx hs hin he, autoIncrement_index_toNat hin, houtside,
    (Wrote.frame (i := .ldMemVx x) ⟨firstOutside_eq_none.2 (.inr hin), rfl⟩).1⟩

/-- Settles O41, by the range of the access and what each register reads after the load. -/
theorem registersAreLoaded : Obligations.RegistersAreLoaded := by
  intro x s
  refine ⟨fun hin => ?_, withData_out_of_range (.ldVxMem x) _ x.toNat.succ_pos⟩
  exact ⟨_, withData_in_range (.ldVxMem x) _ hin, fun r => by rw [reg_autoIncrement, reg_loadRegs],
    autoIncrement_index_toNat (s := s.loadRegs x) hin,
    (Wrote.frame (i := .ldVxMem x) ⟨firstOutside_eq_none.2 (.inr hin), rfl⟩).1⟩

/-- Settles O42: Fx65 loads from the addresses Fx55 stored to. -/
theorem storeThenLoadRestoresTheRegisters : Obligations.StoreThenLoadRestoresTheRegisters := by
  intro x s t u hs hin he hmem hindex
  obtain ⟨v, hv, hreg, -⟩ := (registersAreLoaded x u).1 (by rwa [hindex])
  refine ⟨v, hv, fun r hr => ?_⟩
  rw [hreg, if_pos hr, hmem, hindex, read_of_exec_ldMemVx hs hin he hr]

/-- Settles O38: each rule writes I only. -/
theorem indexInstructions : Obligations.IndexInstructions := fun nnn x s =>
  ⟨⟨_, rfl, addrWord_toNat nnn, (Wrote.frame (i := .ldI nnn) rfl).1⟩,
    ⟨_, rfl, (BitVec.toNat_ofNat _ _).trans (by omega), (Wrote.frame (i := .addI x) rfl).1⟩,
    ⟨_, rfl, glyphAddress_toNat (s.reg x), (Wrote.frame (i := .ldF x) rfl).1⟩⟩

end Sys2Proof.Machine
end

section
/-!
SUPPORT. A draw whose rows are in memory (R201): what the sprite engine leaves, cell by cell, in the terms of the sprite's cells.
-/

namespace Sys2Proof.Machine

theorem flagByte_eq_one_iff {b : Bool} : flagByte b = 0x01#8 ↔ b = true := by
  cases b <;> decide

theorem flagByte_eq_zero_or_one (b : Bool) : flagByte b = 0x00#8 ∨ flagByte b = 0x01#8 := by
  cases b <;> decide

/-! ### The canvas a draw leaves (R201) -/

/-- What the sprite engine leaves of the display, and whether a drawn 1-bit met a lit cell. -/
def State.drawn (s : State) (x y : RegIdx) (n : Nibble) : Canvas :=
  drawRows s.cfg.displayW (s.startX x) (s.startY y) s.mem s.index.toNat (s.rowsDrawn y n) { disp := s.disp, hit := false }

/-- VF, the display and dirty are all a draw in range writes (R125, R201). -/
theorem exec_drw_in_range {s : State} {y : RegIdx} {n : Nibble} (x : RegIdx) (h : s.spriteInRange y n) :
    ∃ t, exec (.drw x y n) s = .next t ∧ t.disp = (s.drawn x y n).disp ∧ t.reg VF = flagByte (s.drawn x y n).hit ∧
      t.dirty = true ∧ sameRegsBut [VF] s t ∧ sameBut [.regs, .disp, .dirty] s t := by
  have hin := spriteInRange_iff.1 h
  exact ⟨_, withData_of_none hin, rfl, reg_setReg_same s VF _, rfl, sameRegsBut_setReg s VF _,
    (Wrote.frame (i := .drw x y n) ⟨hin, _, rfl⟩).1⟩

theorem not_spriteInRange_iff {s : State} {y : RegIdx} {n : Nibble} :
    ¬ s.spriteInRange y n ↔ 0 < s.rowsDrawn y n ∧ 4095 < s.index.toNat + (s.rowsDrawn y n - 1) := by
  unfold State.spriteInRange
  omega

/-- The sprite's cells are those the sprite engine finds a 1-bit for (R201). -/
theorem spriteAt_iff {s : State} {x y : RegIdx} {n : Nibble} {px py : Nat} :
    s.spriteAt x y n px py = true ↔ s.startX x ≤ px ∧ px < s.startX x + 8 ∧ s.startY y ≤ py ∧
      py < s.startY y + s.rowsDrawn y n ∧
      spriteBit (Memory.read s.mem (s.index.toNat + (py - s.startY y))) (px - s.startX x) = true := by
  simp [State.spriteAt, spriteBit, and_assoc]

section
variable {s : State} (x y : RegIdx) (n : Nibble) (hh : 1 ≤ s.cfg.displayH)
  (hd : Display.hasShape s.cfg.displayW s.cfg.displayH s.disp = true)
include hh hd

/-- `State.spriteAt` reads as the sprite's bits in `drawRows_spec` by definition. -/
theorem get_drawn {px py : Nat} (hp : s.onDisplay px py) :
    Display.get (s.drawn x y n).disp px py = xor (Display.get s.disp px py) (s.spriteAt x y n px py) := by
  obtain ⟨-, hget, -⟩ := drawRows_spec (c := ⟨s.disp, false⟩) hd (s.startX x) (s.startY y) s.mem s.index.toNat _
    (startY_add_rowsDrawn_le s y n hh)
  exact hget px py hp.1

/-- A drawn 1-bit meets a lit cell exactly where a cell goes from 1 to 0 (R202). -/
theorem drawn_hit_iff :
    (s.drawn x y n).hit = true ↔
      ∃ px py, s.onDisplay px py ∧ Display.get s.disp px py = true ∧ Display.get (s.drawn x y n).disp px py = false := by
  have hrows := startY_add_rowsDrawn_le s y n hh
  obtain ⟨-, -, hhit⟩ := drawRows_spec (c := ⟨s.disp, false⟩) hd (s.startX x) (s.startY y) s.mem s.index.toNat _ hrows
  refine hhit.trans ⟨?_, ?_⟩
  · rintro (h | ⟨px, py, h1, h2, h3, h4, hw, hlit, hbit⟩)
    · cases h
    · have hp : s.onDisplay px py := ⟨hw, by omega⟩
      refine ⟨px, py, hp, hlit, ?_⟩
      rw [get_drawn x y n hh hd hp, hlit, spriteAt_iff.2 ⟨h1, h2, h3, h4, hbit⟩, Bool.xor_self]
  · rintro ⟨px, py, hp, hlit, hoff⟩
    rw [get_drawn x y n hh hd hp, hlit, Bool.true_xor, Bool.not_eq_false'] at hoff
    obtain ⟨h1, h2, h3, h4, hbit⟩ := spriteAt_iff.1 hoff
    exact .inr ⟨px, py, h1, h2, h3, h4, hp.1, hlit, hbit⟩

end

theorem startY_congr {s u : State} {y : RegIdx} (hcfg : u.cfg = s.cfg) (hy : u.reg y = s.reg y) :
    u.startY y = s.startY y := by
  rw [State.startY, State.startY, hcfg, hy]

theorem rowsDrawn_congr {s u : State} {y : RegIdx} (n : Nibble) (hcfg : u.cfg = s.cfg) (hy : u.reg y = s.reg y) :
    u.rowsDrawn y n = s.rowsDrawn y n := by
  rw [State.rowsDrawn, State.rowsDrawn, startY_congr hcfg hy, hcfg]

/-- The sprite's cells depend on the configuration, memory, I and the two coordinate registers only (R201). -/
theorem spriteAt_congr {s u : State} {x y : RegIdx} (n : Nibble) (hcfg : u.cfg = s.cfg) (hmem : u.mem = s.mem)
    (hindex : u.index = s.index) (hx : u.reg x = s.reg x) (hy : u.reg y = s.reg y) (px py : Nat) :
    u.spriteAt x y n px py = s.spriteAt x y n px py := by
  have hcol : u.startX x = s.startX x := by rw [State.startX, State.startX, hcfg, hx]
  rw [State.spriteAt, State.spriteAt, hcol, startY_congr hcfg hy, rowsDrawn_congr n hcfg hy, hmem, hindex]

theorem spriteInRange_congr {s u : State} {y : RegIdx} (n : Nibble) (hcfg : u.cfg = s.cfg) (hindex : u.index = s.index)
    (hy : u.reg y = s.reg y) : u.spriteInRange y n ↔ s.spriteInRange y n := by
  rw [State.spriteInRange, State.spriteInRange, rowsDrawn_congr n hcfg hy, hindex]

end Sys2Proof.Machine
end

section
/-!
PROOFS. The statements of 43_display.md.
-/

namespace Sys2Proof.Machine

/-- Settles O45: the sprite engine writes VF, the display and dirty, and its collision is a cell that went from 1 to 0. -/
theorem drawComplementsTheSpritesCells : Obligations.DrawComplementsTheSpritesCells := by
  intro x y n s _ hh hd hin
  obtain ⟨t, he, hdisp, hvf, hdirty, hregs, hframe⟩ := exec_drw_in_range x hin
  refine ⟨t, he, fun px py hp => ?_, ?_, ?_, hdirty, exec_keeps_disp_shape hd he, hregs, hframe⟩
  · rw [hdisp, get_drawn x y n hh hd hp]
  · rw [hvf, hdisp, flagByte_eq_one_iff, drawn_hit_iff x y n hh hd]
  · rw [hvf]
    exact flagByte_eq_zero_or_one _

/-- Settles O47: both draws complement the same cells, so the second turns off exactly the cells the first turned on. -/
theorem drawTwiceRestoresTheDisplay : Obligations.DrawTwiceRestoresTheDisplay := by
  intro x y n s t u hw hh hd hin he hcfg hdisp hmem hindex hx hy
  obtain ⟨t', he', hfirst, hvf, -⟩ := drawComplementsTheSpritesCells x y n s hw hh hd hin
  obtain rfl : t = t' := by rw [he] at he'; cases he'; rfl
  obtain ⟨v, hv, hsecond, hvf2, -⟩ := drawComplementsTheSpritesCells x y n u (by rwa [hcfg]) (by rwa [hcfg])
    (by simpa only [hcfg, hdisp] using exec_keeps_disp_shape hd he) ((spriteInRange_congr n hcfg hindex hy).2 hin)
  simp only [State.onDisplay, hcfg, hdisp, spriteAt_congr n hcfg hmem hindex hx hy] at hsecond hvf2
  have hrestored : ∀ px py, s.onDisplay px py → Display.get v.disp px py = Display.get s.disp px py := fun px py hp => by
    rw [hsecond px py hp, hfirst px py hp, Bool.xor_assoc, Bool.xor_self, Bool.xor_false]
  have hon : v.reg VF = 0x01#8 ↔
      ∃ px py, s.onDisplay px py ∧ Display.get s.disp px py = false ∧ Display.get t.disp px py = true := by
    refine hvf2.trans (exists₂_congr fun px py => and_congr_right fun hp => ?_)
    rw [hrestored px py hp, and_comm]
  refine ⟨v, hv, hrestored, hon, fun hzero => ?_⟩
  have hnoneOff : ∀ px py, s.onDisplay px py → Display.get s.disp px py = true → Display.get t.disp px py ≠ false :=
    fun px py hp hlit hoff => absurd (hvf.2 ⟨px, py, hp, hlit, hoff⟩) (by rw [hzero]; decide)
  have hchanged : v.reg VF = 0x01#8 ↔ ∃ px py, s.onDisplay px py ∧ Display.get t.disp px py ≠ Display.get s.disp px py := by
    refine hon.trans (exists₂_congr fun px py => and_congr_right fun hp => ?_)
    cases hs : Display.get s.disp px py with
    | false => simp
    | true => simpa using hnoneOff px py hp hs
  refine ⟨hchanged, hchanged.trans (exists₂_congr fun px py => and_congr_right fun hp => ?_)⟩
  rw [hfirst px py hp]
  cases Display.get s.disp px py <;> simp

/-- Settles O44: the word is the encoding of CLS, and the display is replaced by a blank one. -/
theorem clearScreen : Obligations.ClearScreen := by
  refine ⟨fun w => ?_, fun s => ⟨_, rfl, get_blankDisplay _ _, hasShape_blankDisplay _ _, rfl, ?_⟩⟩
  · rw [decode_eq_instr_iff]
    exact ⟨fun h => ⟨rfl, h.symm⟩, fun ⟨_, h⟩ => h.symm⟩
  · exact (Wrote.frame (i := .cls) rfl).1

/-- Settles O46, by the range of the rows drawn. -/
theorem drawOutOfRangeFaults : Obligations.DrawOutOfRangeFaults := by
  intro x y n s hout
  obtain ⟨hrows, hend⟩ := not_spriteInRange_iff.1 hout
  exact withData_out_of_range (.drw x y n) _ hrows hend

end Sys2Proof.Machine
end

section
/-!
SUPPORT. The words of a row that keeps x only (R95), the key lookup and the key scan by their conditions (R220, R224), and
who reads ST (R226).
-/

namespace Sys2Proof

theorem rowDecodes_x {form : Word → Instr} (op : Nibble) (nn : Byte) (hwf : ∀ w, (form w).wf = true)
    (he : ∀ w, encode (form w) = packXnn op (fieldX w) nn) : rowDecodes (packXnn op 0x0#4 nn) 0xF0FF#16 form := by
  intro w
  rw [decode_eq_instr_iff, he, packXnn_eq_iff]
  conv_lhs => rw [← packXnn_fields w, packXnn_and_nn, packXnn_eq_iff]
  simp [hwf, eq_comm]

end Sys2Proof

namespace Sys2Proof.Machine

/-! ### The key lookup (R220) -/

section
variable {s : State} {x : RegIdx} (i : Instr) (k : Bool → State)

theorem withKey_of_lt (h : (s.reg x).toNat < s.cfg.keyCount) : s.withKey i x k = .next (k (s.keyDown (s.reg x).toNat)) :=
  if_neg h.not_ge

theorem withKey_outside (h : s.cfg.keyCount ≤ (s.reg x).toNat) :
    ∃ t, s.withKey i x k = .next t ∧ faulted (recordOf i .keyIndexOutOfRange (some (byteWord (s.reg x))) s) s t :=
  ⟨_, if_pos h, faulted_raiseIn i _ s nofun⟩

end

/-! ### The key scan (R224) -/

section
variable {s : State}

theorem firstKeyDown_of_split {before rest : List Nat} {k : Nat} (ho : s.cfg.keyScanOrder = before ++ k :: rest)
    (hk : s.keyDown k = true) (hb : ∀ j ∈ before, s.keyDown j = false) : s.firstKeyDown = some k :=
  List.find?_eq_some_iff_append.2 ⟨hk, before, rest, ho, fun j hj => by rw [hb j hj, Bool.not_false]⟩

theorem firstKeyDown_eq_none (h : ∀ k ∈ s.cfg.keyScanOrder, s.keyDown k = false) : s.firstKeyDown = none :=
  List.find?_eq_none.2 fun k hk => by simp [h k hk]

theorem exec_ldVxK_of_some {k : Nat} (x : RegIdx) (h : s.firstKeyDown = some k) :
    exec (.ldVxK x) s = .next (s.setReg x (BitVec.ofNat 8 k)) := by
  simp [exec, execLdVxK, h]

theorem exec_ldVxK_of_none (x : RegIdx) (h : s.firstKeyDown = none) :
    exec (.ldVxK x) s = .next { s with pc := s.pc - 2 } := by
  simp [exec, execLdVxK, h]

end

/-- Going back by 2 undoes the fetch's advance, whatever pc is (R23, R224). -/
theorem fetched_rewound (s : State) :
    { s.fetched with pc := s.fetched.pc - 2 } = { s.accept with dirty := false } := by
  have hpc : s.pc + 2 - 2 = s.accept.pc := by rw [BitVec.add_sub_cancel, State.accept_pc]
  rw [State.fetched_pc, hpc]
  rfl

/-! ### Who reads ST (R226) -/

/-- The state with another sound timer. -/
def State.withSt (s : State) (b : Byte) : State := { s with st := b }

theorem raiseIn_withSt (i : Instr) (c : FaultCode) (a : Option Word) (s : State) (b : Byte) :
    raiseIn i c a (s.withSt b) = (raiseIn i c a s).withSt b := by
  simp only [raiseIn, takeFault, apply_ite (State.withSt · b)]
  rfl

theorem withData_withSt {s t k : State} {i : Instr} {count : Nat} (h : s.withData i count k = .next t) (b : Byte) :
    (s.withSt b).withData i count (k.withSt b) = .next (t.withSt b) := by
  obtain ⟨a, ho, rfl⟩ | ⟨ho, rfl⟩ := withData_cases h
  · exact (withData_of_some (s := s.withSt b) ho).trans (congrArg _ (raiseIn_withSt ..))
  · exact withData_of_none ho

theorem withKey_withSt {s t : State} {i : Instr} {x : RegIdx} {k : Bool → State} (h : s.withKey i x k = .next t) (b : Byte) :
    (s.withSt b).withKey i x (fun down => (k down).withSt b) = .next (t.withSt b) := by
  obtain ⟨ho, rfl⟩ | ⟨ho, rfl⟩ := withKey_cases h
  · exact (if_pos ho).trans (congrArg _ (raiseIn_withSt ..))
  · exact withKey_of_lt (s := s.withSt b) i _ ho

/-- Whichever state ALU_VF_ORDER reads the operands from, a result that does not see ST stays. -/
theorem flagThenResult_withSt (s : State) (x : RegIdx) (f : Byte) (g : State → Byte) (b : Byte)
    (hg : ∀ r : State, g (r.withSt b) = g r) :
    (s.withSt b).flagThenResult x f g = (s.flagThenResult x f g).withSt b := by
  have hop : (s.withSt b).operandsFrom ((s.setReg VF f).withSt b) = (s.operandsFrom (s.setReg VF f)).withSt b := by
    cases ho : s.cfg.aluVfOrder with
    | sequential => rw [operandsFrom_sequential ho, operandsFrom_sequential (s := s.withSt b) ho]
    | latched => rw [operandsFrom_latched ho, operandsFrom_latched (s := s.withSt b) ho]
  have hread : g ((s.withSt b).operandsFrom ((s.setReg VF f).withSt b)) = g (s.operandsFrom (s.setReg VF f)) := by
    rw [hop, hg]
  exact congrArg (fun r => ((s.setReg VF f).withSt b).setReg x r) hread

/-- Noninterference: a changed ST passes through every instruction but Fx18, which writes it over. -/
theorem exec_withSt {i : Instr} {s t : State} (h : exec i s = .next t) (b : Byte) :
    ∃ b', exec i (s.withSt b) = .next (t.withSt b') := by
  cases i
  case ldStVx x =>
    cases h
    exact ⟨s.reg x, rfl⟩
  case skp x => exact ⟨b, withKey_withSt (k := fun down => s.skipIf down) h b⟩
  case sknp x => exact ⟨b, withKey_withSt (k := fun down => s.skipIf !down) h b⟩
  case drw | ldB | ldMemVx | ldVxMem => exact ⟨b, withData_withSt h b⟩
  case ldVxK x =>
    cases hk : s.firstKeyDown with
    | some k =>
      cases (exec_ldVxK_of_some x hk).symm.trans h
      exact ⟨b, exec_ldVxK_of_some (s := s.withSt b) x hk⟩
    | none =>
      cases (exec_ldVxK_of_none x hk).symm.trans h
      exact ⟨b, exec_ldVxK_of_none (s := s.withSt b) x hk⟩
  case ret =>
    have hs : (s.withSt b).stack = s.stack := rfl
    simp only [exec, execRet, hs] at h ⊢
    split at h <;> cases h
    · exact ⟨b, congrArg _ (raiseIn_withSt ..)⟩
    · exact ⟨b, rfl⟩
  case call nnn =>
    simp only [exec, execCall] at h
    split at h <;> cases h
    · exact ⟨b, (if_pos ‹_›).trans (congrArg _ (raiseIn_withSt ..))⟩
    · exact ⟨b, if_neg ‹_›⟩
  case addReg | subReg | subn =>
    cases h
    exact ⟨b, congrArg _ (flagThenResult_withSt s _ _ _ b fun _ => rfl)⟩
  case shr x y | shl x y =>
    cases h
    exact ⟨b, congrArg _ (flagThenResult_withSt (s.shiftSource x y) _ _ _ b fun _ => rfl)⟩
  case sys | cls | jp | jpV0 | seImm | sneImm | seReg | sneReg | ldImm | addImm | ldReg | orReg | andReg | xorReg | rnd | ldI
      | addI | ldF | ldVxDt | ldDtVx =>
    cases h
    exact ⟨b, rfl⟩

end Sys2Proof.Machine
end

section
/-!
PROOFS. The statements of 44_keys_timers.md.
-/

namespace Sys2Proof.Machine

/-- Settles O23: the word keeps x, the rule writes ST only, and a changed ST passes through every instruction. -/
theorem soundTimerIsSetByFx18AndReadByNone : Obligations.SoundTimerIsSetByFx18AndReadByNone :=
  ⟨rowDecodes_x 0xF#4 0x18#8 (fun _ => rfl) fun _ => rfl,
    fun x _ => ⟨_, rfl, rfl, (Wrote.frame (i := .ldStVx x) rfl).1⟩, fun _ _ _ b h => exec_withSt h b⟩

/-- Settles O49, by what the scan finds; a key number below 256 fits a register. -/
theorem keyWait : Obligations.KeyWait := by
  intro x s
  constructor
  · intro before k rest ho hk hdown hbefore
    refine ⟨_, exec_ldVxK_of_some x (firstKeyDown_of_split ho hdown hbefore), ?_, sameRegsBut_setReg s x _,
      sameBut_setReg s x _⟩
    rw [reg_setReg_same, BitVec.toNat_ofNat, Nat.mod_eq_of_lt hk]
  · intro hnone
    exact ⟨_, exec_ldVxK_of_none x (firstKeyDown_eq_none hnone), rfl, sameBut_jump s _⟩

/-- Settles O50: the wait takes back the fetch's advance, so the step leaves pc and memory, and with them the word. -/
theorem keyWaitRepeatsTheInstruction : Obligations.KeyWaitRepeatsTheInstruction := by
  intro x s hr hpc hd hup
  have hnone : s.fetched.firstKeyDown = none := firstKeyDown_eq_none (by rwa [State.fetched_cfg])
  have hstep : step s = .next { s.accept with dirty := false } := by
    rw [step_of_instr hr hpc hd, exec_ldVxK_of_none x hnone, fetched_rewound]
  refine ⟨_, hstep, State.accept_pc s, ?_, rfl, by simp [sameBut, State.reg]⟩
  simpa [State.decodedAtPc] using hd

/-- Settles O51: the words keep x, and each rule writes its destination only. -/
theorem delayTimerMoves : Obligations.DelayTimerMoves :=
  ⟨rowDecodes_x 0xF#4 0x07#8 (fun _ => rfl) fun _ => rfl, rowDecodes_x 0xF#4 0x15#8 (fun _ => rfl) fun _ => rfl,
    fun x s => ⟨⟨_, rfl, reg_setReg_same s x _, sameRegsBut_setReg s x _, sameBut_setReg s x _⟩,
      ⟨_, rfl, rfl, (Wrote.frame (i := .ldDtVx x) rfl).1⟩⟩⟩

/-- Settles O48, by the key lookup; the skip is `skipIf` under the key's state or its complement. -/
theorem skipsOnKeys : Obligations.SkipsOnKeys := by
  intro x s
  constructor
  · intro hin
    refine ⟨⟨_, withKey_of_lt (.skp x) (fun down => s.skipIf down) hin, rfl, sameBut_skipIf s _⟩,
      ⟨_, withKey_of_lt (.sknp x) (fun down => s.skipIf !down) hin, ?_, sameBut_skipIf s _⟩⟩
    rw [State.skipIf_pc, State.keyDown]
    cases s.keys.getD (s.reg x).toNat false <;> rfl
  · intro hout
    exact ⟨withKey_outside (.skp x) (fun down => s.skipIf down) hout,
      withKey_outside (.sknp x) (fun down => s.skipIf !down) hout⟩

end Sys2Proof.Machine
end

section
/-!
SUPPORT. What a step that halts has done (R241 to R244), the word at pc against what it decodes to (R95), the port calls while
halted (R246), and ticks one at a time (R251, R252).
-/

namespace Sys2Proof.Machine

/-! ### A step that halts (R241 to R244) -/

theorem eq_of_fetchOutside_eq_some {pc a : Word} (h : fetchOutside pc = some a) : a = if 4095 < pc.toNat then pc else pc + 1 := by
  have hpc : 4094 < pc.toNat := by
    by_contra hle
    simp [fetchOutside_eq_none.2 (not_lt.1 hle)] at h
  exact (Option.some.inj ((fetchOutside_of_gt hpc).symm.trans h)).symm

/-- A fault that leaves a running engine halted has been latched: one that is only reported leaves HALT = 0 (R244, R245). -/
theorem faulted_of_takeFault_halt {r : FaultRecord} {s : State} (hs : s.halt = false) (h : (takeFault r s).halt = true) :
    faulted r s (takeFault r s) := by
  cases hc : r.code.halts s.cfg.unknownPolicy with
  | true => exact faulted_takeFault hc
  | false => simp [takeFault_of_not_halts hc, hs] at h

/-- The frame of a fetch fault, from the state whose dirty the fetch has cleared (R121). -/
theorem sameBut.of_clearDirty {ps : List Part} {s t : State} (h : sameBut ps { s with dirty := false } t) :
    sameBut (.dirty :: ps) s t := by
  obtain ⟨hregs, hindex, hpc, hdt, hst, hstack, hdisp, -, hrest⟩ := sameBut_mono (fun _ => List.mem_cons_of_mem Part.dirty) h
  exact ⟨hregs, hindex, hpc, hdt, hst, hstack, hdisp, .inl (List.mem_cons_self ..), hrest⟩

/-- The faults of the execute stage are not those of the stages before it (R240). -/
theorem not_fetchDecode_fault {c : FaultCode}
    (h : c ∈ [FaultCode.stackUnderflow, .stackOverflow, .dataOutOfRange, .keyIndexOutOfRange]) :
    c ≠ .unknownInstruction ∧ c ≠ .fetchOutOfRange := by
  constructor <;> rintro rfl <;> simp at h

/-- A step that halts has taken a fetch fault, met an unknown word, or raised the fault of the instruction at pc. -/
theorem step_halts_cases {s t : State} (h : step s = .next t) (ht : t.halt = true) :
    (∃ a, fetchOutside s.pc = some a ∧
        faulted { code := .fetchOutOfRange, word := none, pc := s.pc, addr := some a } { s.accept with dirty := false } t) ∨
      (∃ w, s.decodedAtPc = .unknown w ∧
        faulted { code := .unknownInstruction, word := some w, pc := s.pc, addr := none } s.fetched t) ∨
      (∃ i, s.decodedAtPc = .instr i ∧ Raised i s.fetched t) := by
  obtain ⟨⟨-, hh, -⟩, ⟨a, ho, rfl⟩ | ⟨w, -, hd, rfl⟩ | ⟨i, -, hd, he⟩⟩ := step_cases h
  · exact .inl ⟨a, ho, faulted_takeFault (halts_of_ne _ nofun)⟩
  · exact .inr (.inl ⟨w, hd, faulted_of_takeFault_halt ((State.fetched_halt s).trans hh) ht⟩)
  · obtain hraised | hwrote := exec_cases he
    · exact .inr (.inr ⟨i, hd, hraised⟩)
    · obtain ⟨hkept, -⟩ := hwrote.frame.1.latch (latch_not_mem_mayWrite i)
      rw [hkept, State.fetched_halt, hh] at ht
      cases ht

/-! ### The word at pc (R91, R95) -/

theorem encode_of_decodedAtPc {s : State} {i : Instr} (h : s.decodedAtPc = .instr i) :
    encode i = assemble (Memory.read s.mem s.pc.toNat) (Memory.read s.mem (s.pc.toNat + 1)) :=
  (decode_eq_instr_iff.1 h).2

theorem word_of_decodedAtPc_unknown {s : State} {w : Word} (h : s.decodedAtPc = .unknown w) :
    w = assemble (Memory.read s.mem s.pc.toNat) (Memory.read s.mem (s.pc.toNat + 1)) := by
  have hs : s.decodedAtPc.StandsFor _ := decode_standsFor _
  rwa [h] at hs

theorem fieldX_encode_key {i : Instr} {x : RegIdx} (h : i = .skp x ∨ i = .sknp x) : fieldX (encode i) = x := by
  obtain rfl | rfl := h <;> exact fieldX_packXnn _ x _

/-! ### The ports while halted (R246) -/

theorem call_step_of_halted {s : State} (keys : List Bool) (rnd : Byte) (hh : s.halt = true) :
    (call (.step keys rnd) s).1 = s := by
  obtain hsame | hnext := call_step_cases keys rnd s
  · exact hsame
  · obtain ⟨⟨-, hrun, -⟩, -⟩ := step_cases hnext
    cases hh.symm.trans hrun

theorem call_keeps_latch {c : PortCall} {s : State} (hh : s.halt = true) (hc : c ≠ .reset) :
    (call c s).1.halt = s.halt ∧ (call c s).1.fault = s.fault := by
  cases c with
  | reset => exact absurd rfl hc
  | loadFont image =>
    simp only [call]
    obtain ⟨-, e⟩ | ⟨-, e⟩ := loadFont_cases image s <;> simp [e]
  | loadProgram image =>
    simp only [call]
    obtain ⟨-, e⟩ | ⟨-, e⟩ := loadProgram_cases image s <;> simp [e]
  | step keys rnd => rw [call_step_of_halted keys rnd hh]; exact ⟨rfl, rfl⟩
  | tick => exact ⟨rfl, rfl⟩

/-! ### Ticks one at a time (R251, R252) -/

theorem sameBut_tick (s : State) : sameBut [.dt, .st] s (tick s) := by simp [sameBut]

theorem ticks_eq_iterate_tick (n : Nat) (s : State) : ticks n s = tick^[n] s := by
  induction n generalizing s with
  | zero => rfl
  | succ n ih => exact ih (tick s)

end Sys2Proof.Machine
end

section
/-!
PROOFS. The statements of 60_exceptions.md.
-/

namespace Sys2Proof.Machine

/-- Settles O11: the step port has no next state while halted, no other port but `reset` writes the latch. -/
theorem onlyResetLeavesHalt : Obligations.OnlyResetLeavesHalt := by
  intro c s hh
  constructor
  · intro hc
    obtain ⟨hhalt, hfault⟩ := call_keeps_latch hh hc
    exact ⟨hhalt.trans hh, hfault⟩
  · rintro rfl
    exact ⟨rfl, rfl⟩

/-- Settles O12, by what a step that halts has done: each fault writes the latch only, from the state it is raised in. -/
theorem faultsArePrecise : Obligations.FaultsArePrecise := by
  intro s t h ht
  obtain ⟨a, -, -, hf, -, hframe⟩ | ⟨w, -, -, hf, -, hframe⟩ | ⟨i, -, c, a, hc, rfl, -⟩ := step_halts_cases h ht
  · exact ⟨_, hf, fun _ => ⟨hframe.dirty (by simp), hframe.of_clearDirty⟩, fun hne => absurd rfl hne⟩
  · exact ⟨_, hf, nofun, fun _ => hframe⟩
  · obtain ⟨hunknown, hfetch⟩ := not_fetchDecode_fault hc
    obtain ⟨-, hf, -, hframe⟩ := faulted_raiseIn i a s.fetched hunknown
    exact ⟨_, hf, fun he => absurd he hfetch, fun _ => hframe⟩

/-- Settles O13, by what a step that halts has done: the fetch leaves the registers and I, and pc two past the instruction. -/
theorem faultRecordNamesTheInstruction : Obligations.FaultRecordNamesTheInstruction := by
  intro s t r h ht hr
  obtain ⟨a, ho, -, hf, -⟩ | ⟨w, hd, -, hf, -⟩ | ⟨i, hd, c, a, hc, rfl, hnone, hdata, hkey⟩ := step_halts_cases h ht
  · cases hr.symm.trans hf
    simp [eq_of_fetchOutside_eq_some ho]
  · cases hr.symm.trans hf
    simp [word_of_decodedAtPc_unknown hd]
  · obtain ⟨hunknown, hfetch⟩ := not_fetchDecode_fault hc
    obtain ⟨-, hf, -⟩ := faulted_raiseIn i a s.fetched hunknown
    cases hr.symm.trans hf
    simp only [State.fetched_index, State.fetched_cfg, reg_fetched] at hdata hkey
    refine ⟨BitVec.add_sub_cancel s.pc 2, (congrArg some (encode_of_decodedAtPc hd)).trans (if_neg hfetch).symm,
      fun hstop => hnone ?_, fun he => absurd he hfetch, hdata, fun he w hw => ?_⟩
    · simpa [recordOf, hunknown] using hstop
    · obtain ⟨x, hi, hout, ha⟩ := hkey he
      cases hw
      rw [fieldX_encode_key hi]
      exact ⟨hout, ha⟩

/-- Settles O52: a decrement is a subtraction clamped at 0, and a tick is one decrement of each timer. -/
theorem ticksDecrementBothTimers : Obligations.TicksDecrementBothTimers := fun n s =>
  ⟨⟨countDown_toNat s.dt, countDown_toNat s.st, sameBut_tick s⟩, ticks_eq_iterate_tick n s, countDownBy_toNat n s.dt,
    countDownBy_toNat n s.st⟩

end Sys2Proof.Machine
end
